-- ==== Sys2Proof/Word.lean ====
section
/-! DEFINITION. The word types of WSPR-ENC: 32-bit registers, 8-bit characters and payload cells, and the four packed buffers. -/

namespace Sys2Proof

/-- A host register word: every register is 32 bits wide (00_scope.md R6, 20_memory.md R62). -/
abbrev Word := BitVec 32

/-- A character code or a payload cell (00_scope.md R9, 10_state.md R36). -/
abbrev Byte := BitVec 8

/-- An 8-bit opcode (30_encoding.md R90). -/
abbrev Opcode := BitVec 8

/-- A byte offset within the 0x100-byte register window (20_memory.md R60). -/
abbrev Offset := BitVec 8

/-- The existing bits of PAYLOAD_0..PAYLOAD_12, lowest word first: cell `i` is bits [8i+7:8i] (10_state.md R36). -/
abbrev PayloadBuf := BitVec 400

/-- The existing bits of CODE_0..CODE_5 or ILV_0..ILV_5: cell `n` is bit `n` (10_state.md R37, R38). -/
abbrev BitBuf := BitVec 162

/-- The existing bits of SYM_0..SYM_10: symbol `i` is bits [2i+1:2i] (10_state.md R39). -/
abbrev SymBuf := BitVec 324

end Sys2Proof
end

