-- ==== Sys2Proof/Syntax.lean ====
section
/-! DEFINITION. The commands of the block: one constructor per row of spec/opcode_table.json (30_encoding.md R92). -/

namespace Sys2Proof

/-- The nine commands. "A command has no immediate, register-number or mode field. Its operands are fixed registers"
(30_encoding.md R90), so no constructor has an argument. -/
inductive Instr where
  | encode
  | srcCallsign
  | srcLocpwr
  | pack
  | conv
  | interleave
  | assemble
  | chrAlnum
  | chrAlpha
  deriving DecidableEq, Repr

end Sys2Proof
end

