-- ==== Sys2Proof/Decode.lean ====
section
/-! DEFINITION. Decoding a command word, total over all 2^32 words, and the encoder (30_encoding.md R90 to R93). -/

namespace Sys2Proof

/-- Why a command word names no command. The machine does not stop on it: the command is accepted and completes with
IllegalCommand (30_encoding.md R93). -/
inductive DecodeReject where
  /-- The opcode is 0x00 or 0x0A to 0xFF. -/
  | reservedOpcode (op : Opcode)
  deriving DecidableEq, Repr

/-- The opcode map (30_encoding.md R92); every other value is reserved (R93). -/
def decodeOp (op : Opcode) : Except DecodeReject Instr :=
  match op.toNat with
  | 0x01 => .ok .encode
  | 0x02 => .ok .srcCallsign
  | 0x03 => .ok .srcLocpwr
  | 0x04 => .ok .pack
  | 0x05 => .ok .conv
  | 0x06 => .ok .interleave
  | 0x07 => .ok .assemble
  | 0x08 => .ok .chrAlnum
  | 0x09 => .ok .chrAlpha
  | _ => .error (.reservedOpcode op)

/-- `v[7:0]`: the OP field of a command word (30_encoding.md R90). -/
def opField (w : Word) : Opcode := w.extractLsb' 0 8

/-- "Decoding reads only `v[7:0]`" (30_encoding.md R91). -/
def decode (w : Word) : Except DecodeReject Instr := decodeOp (opField w)

/-- The opcode of a command (30_encoding.md R92). -/
def opcodeOf : Instr → Opcode
  | .encode => 0x01
  | .srcCallsign => 0x02
  | .srcLocpwr => 0x03
  | .pack => 0x04
  | .conv => 0x05
  | .interleave => 0x06
  | .assemble => 0x07
  | .chrAlnum => 0x08
  | .chrAlpha => 0x09

/-- The word `CMD <MNEMONIC>` writes: "`W CMD, <OP of MNEMONIC>`" (30_encoding.md R97), bits [31:8] zero. -/
def encode (i : Instr) : Word := (opcodeOf i).setWidth 32

/-- The command word whose low `nbits` bits are those of `w` and whose other bits are 0. -/
def tableWord (nbits w : Nat) : Word := BitVec.ofNat 32 (w % 2 ^ nbits)

/-- What the decoder reads from a table row's bits: a command is one 32-bit word written whole (30_encoding.md R90). -/
def decodeTableWord (nbits w : Nat) : Option Instr :=
  match decode (tableWord nbits w) with
  | .ok i => some i
  | .error _ => none

end Sys2Proof
end

