-- ==== Sys2Proof/Config.lean ====
section
/-! DEFINITION. What the spec fixes as parameters (00_scope.md R5, R6) and the one free value of the model. -/

namespace Sys2Proof.Config

/-- Bytes in the register window (00_scope.md R6). -/
abbrev windowBytes : Nat := 0x100

/-- The smallest and the largest callsign length (00_scope.md R5). -/
abbrev callsignMin : Nat := 3
abbrev callsignMax : Nat := 6

/-- The locator length (00_scope.md R5). -/
abbrev locatorLength : Nat := 4

/-- The largest power in dBm (00_scope.md R5). -/
abbrev powerMax : Nat := 60

/-- Payload cells (00_scope.md R5). -/
abbrev payloadLength : Nat := 50

/-- Padded payload bits: the payload and 31 tail bits (00_scope.md R5). -/
abbrev paddedLength : Nat := 81

/-- Code bits, interleaved bits and symbols (00_scope.md R5). -/
abbrev codeLength : Nat := 162

/-- FREE VALUE (log 5). What a read, while BUSY = 1, of a register in the pending command's write set returns before its
reserved bits are forced to 0: "a free draw, under no law, and independent for every read" (70_reset_and_hazards.md R245).
The argument is the State field `draws`, which every such read advances. -/
opaque freeRead : Nat → Word

end Sys2Proof.Config
end

