-- ==== Sys2Proof/Machine/State.lean ====
section
/-! DEFINITION. The state of WSPR-ENC (10_state.md R20 to R44), the reasons a step can stop, and the state after reset. -/

namespace Sys2Proof.Machine

/-- The STATUS.ERR codes (10_state.md R26). "0x5 to 0xE reserved; never produced". -/
inductive ErrCode where
  /-- 0x0, success. -/
  | none
  /-- 0x1, ConvolutionBitSetError. -/
  | convBitSet
  /-- 0x2, CallsignEncodeError. -/
  | callsign
  /-- 0x3, LocatorEncodeError. -/
  | locator
  /-- 0x4, PowerEncodeError. -/
  | power
  /-- 0xF, IllegalCommand. -/
  | illegal
  deriving DecidableEq, Repr

/-- STATUS (10_state.md R25). -/
structure Status where
  busy : Bool
  done : Bool
  err  : ErrCode
  deriving DecidableEq, Repr

/-- What can happen next: a host access to the window, the reset input, or the core's turn
(70_reset_and_hazards.md R243, R240). -/
inductive HostEvent where
  /-- A host read of `bits` bits at byte offset `off` of the window (20_memory.md R60). -/
  | read (bits : Nat) (off : Offset)
  /-- A host write of `bits` bits at byte offset `off`; `v` is the value of a 32-bit write (20_memory.md R60). -/
  | write (bits : Nat) (off : Offset) (v : Word)
  /-- The reset input is asserted (70_reset_and_hazards.md R240). -/
  | reset
  /-- The core takes its completion step if a command is pending (70_reset_and_hazards.md R249). -/
  | coreTurn
  deriving DecidableEq, Repr

/-- The state of the block. Reserved bits do not exist here: they are RAZ/WI in the operations that read and write
registers (20_memory.md R67). The fields from `events` on are the model's own. -/
structure State where
  /-- CMD.OP (10_state.md R24). -/
  cmdOp     : Opcode
  /-- STATUS (10_state.md R25). -/
  status    : Status
  /-- CALL_LEN.LEN (10_state.md R27). -/
  callLen   : Byte
  /-- CALL_A: CALL[0..3] (10_state.md R28). -/
  callA     : Word
  /-- CALL_B[15:0]: CALL[4..5] (10_state.md R28). -/
  callB     : BitVec 16
  /-- LOC_LEN.LEN (10_state.md R29). -/
  locLen    : Byte
  /-- LOC: LOC[0..3] (10_state.md R30). -/
  loc       : Word
  /-- POWER.DBM (10_state.md R31). -/
  power     : Word
  /-- CS_CODE.CODE (10_state.md R32). -/
  csCode    : Word
  /-- LP_CODE.CODE (10_state.md R33). -/
  lpCode    : Word
  /-- CHR_IN.CH (10_state.md R34). -/
  chrIn     : Byte
  /-- CHR_OUT.VAL (10_state.md R35). -/
  chrOut    : BitVec 6
  /-- PAYLOAD[0..49] (10_state.md R36). -/
  payload   : PayloadBuf
  /-- CODE[0..161] (10_state.md R37). -/
  code      : BitBuf
  /-- ILV[0..161] (10_state.md R38). -/
  ilv       : BitBuf
  /-- SYM[0..161] (10_state.md R39). -/
  sym       : SymBuf
  /-- SR, the convolutional encoder's shift register (10_state.md R40; log 3). -/
  sr        : Word
  /-- PEND, the accepted, not yet executed command (10_state.md R41). -/
  pend      : Option Opcode
  /-- HOSTFAULT, the spec's own model-only mark (10_state.md R43). -/
  hostFault : Bool
  /-- The model's own: what is still to happen, head first (log 2). -/
  events    : List HostEvent
  /-- The model's own: the value the last host read returned (log 4). -/
  rdata     : Option Word
  /-- The model's own: how many free values have been drawn (log 5). -/
  draws     : Nat
  deriving DecidableEq, Repr

/-- Why the machine stops. -/
inductive Fault where
  /-- Raised by `step` in a state with HOSTFAULT = 1, unless the next event is reset: a host access the spec does not admit has
  been made, and "the model refuses to continue" (00_scope.md glossary, 60_exceptions.md R216; log 1). Safe: nothing can be
  proved of such a run. -/
  | hostFault
  deriving DecidableEq, Repr

/-- Why an instruction has no meaning. -/
inductive Refusal where
  /-- Raised only by an arm of `exec` whose instruction is not modelled; no arm is. Safe. -/
  | notModelled (mnemonic : String)
  deriving DecidableEq, Repr

/-- The state at power-on (70_reset_and_hazards.md R240): "every host-visible register is 0x00000000, PEND = none and SR = 0",
and HOSTFAULT = 0 (10_state.md R43). The model's own fields start empty (logs 2, 4, 5). -/
def State.reset : State where
  cmdOp := 0
  status := ⟨false, false, .none⟩
  callLen := 0
  callA := 0
  callB := 0
  locLen := 0
  loc := 0
  power := 0
  csCode := 0
  lpCode := 0
  chrIn := 0
  chrOut := 0
  payload := 0
  code := 0
  ilv := 0
  sym := 0
  sr := 0
  pend := none
  hostFault := false
  events := []
  rdata := none
  draws := 0

end Sys2Proof.Machine
end

