-- ==== Sys2Proof/Machine/Flags.lean ====
section
/-! DEFINITION. The flags: STATUS.BUSY, STATUS.DONE and STATUS.ERR, the only condition bits of the block (10_state.md R44). -/

namespace Sys2Proof.Machine

/-- The STATUS.ERR encodings (10_state.md R26). -/
def ErrCode.code : ErrCode → BitVec 4
  | .none => 0x0
  | .convBitSet => 0x1
  | .callsign => 0x2
  | .locator => 0x3
  | .power => 0x4
  | .illegal => 0xF

/-- STATUS as the host reads it: BUSY = [0], DONE = [1], ERR = [7:4], the rest zero (10_state.md R25). -/
def Status.word (st : Status) : Word :=
  (BitVec.ofBool st.busy).setWidth 32 ||| ((BitVec.ofBool st.done).setWidth 32 <<< 1) ||| (st.err.code.setWidth 32 <<< 4)

/-- STATUS while a command is pending: BUSY = 1, DONE = 0, ERR = 0 (10_state.md R24). -/
def statusAccepted : Status := ⟨true, false, .none⟩

/-- STATUS after a completion step with result code `e`: BUSY = 0, DONE = 1, ERR = e (70_reset_and_hazards.md R249). -/
def statusCompleted (e : ErrCode) : Status := ⟨false, true, e⟩

end Sys2Proof.Machine
end

