-- ==== Sys2Proof/Machine/Operands.lean ====
section
/-! DEFINITION. The operand forms of the commands (30_encoding.md R95) and the packing of cells into registers
(20_memory.md R63, R64). -/

namespace Sys2Proof.Machine

/-- The `n`-bit vector whose bit `k` is `f k`. -/
def bitsOfFn (f : Nat → Bool) : (n : Nat) → BitVec n
  | 0 => 0#0
  | n + 1 => BitVec.cons (f n) (bitsOfFn f n)

/-- The `n`-bit buffer whose `c`-bit cell `i`, bits [c*i+c-1 : c*i], is `f i` (20_memory.md R64). -/
def cellsOfFn (c n : Nat) (f : Nat → BitVec c) : BitVec n :=
  bitsOfFn (fun j => (f (j / c)).getLsbD (j % c)) n

/-- Cell `i` of a buffer of `c`-bit cells (20_memory.md R64). -/
def cellAt (c : Nat) {n : Nat} (buf : BitVec n) (i : Nat) : BitVec c := buf.extractLsb' (c * i) c

/-- CALL[k]: CALL_A holds characters 0 to 3 and CALL_B[15:0] characters 4 and 5, by byte lane (10_state.md R28). -/
def callChar (s : State) (k : Nat) : Byte := cellAt 8 (s.callB ++ s.callA) k

/-- LOC[k] (10_state.md R30). -/
def locChar (s : State) (k : Nat) : Byte := cellAt 8 s.loc k

/-- CALL_LEN.LEN as an integer (30_encoding.md R95). -/
def callLength (s : State) : Nat := s.callLen.toNat

/-- LOC_LEN.LEN as an integer (30_encoding.md R95). -/
def locLength (s : State) : Nat := s.locLen.toNat

/-- POWER.DBM, zero-extended: an integer 0 to 2^32 - 1 (30_encoding.md R95). -/
def powerValue (s : State) : Nat := s.power.toNat

/-- PAYLOAD[i], an unsigned 8-bit integer (30_encoding.md R95). -/
def payloadCell (p : PayloadBuf) (i : Nat) : Byte := cellAt 8 p i

/-- SYM[i], a 2-bit value (10_state.md R39). -/
def symCell (y : SymBuf) (i : Nat) : BitVec 2 := cellAt 2 y i

end Sys2Proof.Machine
end

