-- ==== Sys2Proof/Machine/Ops.lean ====
section
/-! DEFINITION. The named operations over the register window and the command lifecycle: the register map, host reads and
writes, accepting a command, completing one with or without an error, and the reset input. -/

namespace Sys2Proof.Machine

/-! ### The register map -/

/-- The registers of the window (10_state.md R23). The argument of a buffer is the word index `w`. -/
inductive Reg where
  | cmd
  | status
  | callLen
  | callA
  | callB
  | locLen
  | loc
  | power
  | csCode
  | lpCode
  | chrIn
  | chrOut
  | payload (w : Nat)
  | code (w : Nat)
  | ilv (w : Nat)
  | sym (w : Nat)
  | unmapped
  deriving DecidableEq, Repr

/-- The register at word `w` of the window, byte offsets 4w to 4w+3 (10_state.md R23). -/
def regWord (w : Nat) : Reg :=
  match w with
  | 0 => .cmd        -- 0x000
  | 1 => .status     -- 0x004
  | 2 => .callLen    -- 0x008
  | 3 => .callA      -- 0x00C
  | 4 => .callB      -- 0x010
  | 5 => .locLen     -- 0x014
  | 6 => .loc        -- 0x018
  | 7 => .power      -- 0x01C
  | 8 => .csCode     -- 0x020
  | 9 => .lpCode     -- 0x024
  | 10 => .chrIn     -- 0x028
  | 11 => .chrOut    -- 0x02C
  | w =>
    if 16 ≤ w ∧ w ≤ 28 then .payload (w - 16)     -- 0x040 to 0x070
    else if 32 ≤ w ∧ w ≤ 37 then .code (w - 32)   -- 0x080 to 0x094
    else if 40 ≤ w ∧ w ≤ 45 then .ilv (w - 40)    -- 0x0A0 to 0x0B4
    else if 48 ≤ w ∧ w ≤ 58 then .sym (w - 48)    -- 0x0C0 to 0x0E8
    else .unmapped

/-- The register at the word that holds byte offset `off` (10_state.md R23). -/
def regAt (off : Offset) : Reg := regWord (off.toNat / 4)

/-- off(REG), the byte offset of a register (10_state.md R23). An unmapped word is represented by 0x030. -/
def Reg.offset : Reg → Offset
  | .cmd => 0x00
  | .status => 0x04
  | .callLen => 0x08
  | .callA => 0x0C
  | .callB => 0x10
  | .locLen => 0x14
  | .loc => 0x18
  | .power => 0x1C
  | .csCode => 0x20
  | .lpCode => 0x24
  | .chrIn => 0x28
  | .chrOut => 0x2C
  | .payload w => BitVec.ofNat 8 (0x40 + 4 * w)
  | .code w => BitVec.ofNat 8 (0x80 + 4 * w)
  | .ilv w => BitVec.ofNat 8 (0xA0 + 4 * w)
  | .sym w => BitVec.ofNat 8 (0xC0 + 4 * w)
  | .unmapped => 0x30

/-- The bits of a register that are not reserved; an unmapped word has none (20_memory.md R67). -/
def Reg.mask : Reg → Word
  | .cmd => 0x000000FF
  | .status => 0x000000F3
  | .callLen => 0x000000FF
  | .callA => 0xFFFFFFFF
  | .callB => 0x0000FFFF
  | .locLen => 0x000000FF
  | .loc => 0xFFFFFFFF
  | .power => 0xFFFFFFFF
  | .csCode => 0xFFFFFFFF
  | .lpCode => 0xFFFFFFFF
  | .chrIn => 0x000000FF
  | .chrOut => 0x0000003F
  | .payload w => if w < 12 then 0xFFFFFFFF else if w = 12 then 0x0000FFFF else 0
  | .code w => if w < 5 then 0xFFFFFFFF else if w = 5 then 0x00000003 else 0
  | .ilv w => if w < 5 then 0xFFFFFFFF else if w = 5 then 0x00000003 else 0
  | .sym w => if w < 10 then 0xFFFFFFFF else if w = 10 then 0x0000000F else 0
  | .unmapped => 0

/-- Word `w` of a packed buffer; the bits past the buffer's end are reserved and read as zero (10_state.md R36 to R39). -/
def wordAt {n : Nat} (buf : BitVec n) (w : Nat) : Word := buf.extractLsb' (32 * w) 32

/-- A packed buffer with word `w` replaced by `v`; the bits past the buffer's end are dropped (20_memory.md R67). -/
def setWordAt {n : Nat} (buf : BitVec n) (w : Nat) (v : Word) : BitVec n :=
  (buf &&& ~~~((BitVec.allOnes 32).setWidth n <<< (32 * w))) ||| (v.setWidth n <<< (32 * w))

/-- The current value of a register, reserved bits 0 (20_memory.md R67, R69). -/
def Reg.read (s : State) : Reg → Word
  | .cmd => s.cmdOp.setWidth 32
  | .status => s.status.word
  | .callLen => s.callLen.setWidth 32
  | .callA => s.callA
  | .callB => s.callB.setWidth 32
  | .locLen => s.locLen.setWidth 32
  | .loc => s.loc
  | .power => s.power
  | .csCode => s.csCode
  | .lpCode => s.lpCode
  | .chrIn => s.chrIn.setWidth 32
  | .chrOut => s.chrOut.setWidth 32
  | .payload w => wordAt s.payload w
  | .code w => wordAt s.code w
  | .ilv w => wordAt s.ilv w
  | .sym w => wordAt s.sym w
  | .unmapped => 0

/-- The byte at byte offset `a` of the window: byte lane `a mod 4` of the register there (20_memory.md R63). -/
def windowByte (s : State) (a : Offset) : Byte := cellAt 8 (Reg.read s (regAt a)) (a.toNat % 4)

/-! ### The command lifecycle -/

/-- A host write of `v` to CMD while BUSY = 0 accepts a command (70_reset_and_hazards.md R246). -/
def acceptCommand (s : State) (v : Word) : State :=
  { s with cmdOp := opField v, status := statusAccepted, pend := some (opField v) }

/-- The end of every completion step: STATUS <- (BUSY = 0, DONE = 1, ERR = e) and PEND <- none
(70_reset_and_hazards.md R249). -/
def complete (s : State) (e : ErrCode) : State := { s with status := statusCompleted e, pend := none }

/-- A command ends in success, all its writes made (70_reset_and_hazards.md R249). -/
def succeed (s : State) : Host.Outcome State Fault Refusal := .next (complete s .none)

/-- `raise Err(e)`: the block's one exception entry. STATUS and PEND change, nothing else; "The block saves no return state,
changes no mode, masks nothing and uses no stack or vector" (60_exceptions.md R218). There is no return operation: accepting
the next command clears ERR and DONE (R219), which is `acceptCommand`. -/
def raiseErr (s : State) (e : ErrCode) : Host.Outcome State Fault Refusal := .next (complete s e)

/-- The write set of a command (30_encoding.md R94). -/
def commandWrites : Instr → Reg → Bool
  | .encode, .csCode => true
  | .encode, .lpCode => true
  | .encode, .payload _ => true
  | .encode, .code _ => true
  | .encode, .ilv _ => true
  | .encode, .sym _ => true
  | .srcCallsign, .csCode => true
  | .srcLocpwr, .lpCode => true
  | .pack, .payload _ => true
  | .conv, .code _ => true
  | .interleave, .ilv _ => true
  | .assemble, .sym _ => true
  | .chrAlnum, .chrOut => true
  | .chrAlpha, .chrOut => true
  | _, _ => false

/-- Is the register in the write set of the pending command (70_reset_and_hazards.md R245)? A reserved opcode writes STATUS
only (30_encoding.md R94). -/
def pendingWrites (s : State) (r : Reg) : Bool :=
  match s.pend with
  | none => false
  | some op =>
    match decodeOp op with
    | .ok i => commandWrites i r
    | .error _ => false

/-! ### Host accesses -/

/-- "Every host access is 32 bits wide at an offset that is a multiple of 4" (20_memory.md R62). -/
def admitted (bits : Nat) (off : Offset) : Bool := bits == 32 && off.toNat % 4 == 0

/-- The spec's mark on a run with an access it does not admit (10_state.md R43). -/
def setHostFault (s : State) : State := { s with hostFault := true }

/-- The host gets the value `v` back; no read has another effect (20_memory.md R66; log 4). -/
def answerRead (s : State) (v : Word) : State := { s with rdata := some v }

/-- The host gets a free value with the register's reserved bits 0 (70_reset_and_hazards.md R245; log 5). -/
def drawRead (s : State) (r : Reg) : State :=
  { s with rdata := some (Config.freeRead s.draws &&& r.mask), draws := s.draws + 1 }

/-- A read of a register while BUSY = 1 (70_reset_and_hazards.md R245). -/
def busyRead (s : State) (r : Reg) : State :=
  if r = .status then answerRead s statusAccepted.word
  else if pendingWrites s r then drawRead s r
  else answerRead s (r.read s)

/-- A host read (20_memory.md R62, R69; 70_reset_and_hazards.md R245). An access not admitted has "no effect and no read
value" and sets HOSTFAULT. -/
def hostRead (bits : Nat) (off : Offset) (s : State) : State :=
  if admitted bits off then
    if s.status.busy then busyRead s (regAt off) else answerRead s ((regAt off).read s)
  else { setHostFault s with rdata := none }

/-- A host write of `v` to a register while BUSY = 0: CMD accepts a command (20_memory.md R66), another RW register stores
every non-reserved bit (R69), and a write to an RO register or an unmapped offset is ignored (R67, R68). -/
def Reg.store (s : State) (v : Word) : Reg → State
  | .cmd => acceptCommand s v
  | .status => s
  | .callLen => { s with callLen := v.setWidth 8 }
  | .callA => { s with callA := v }
  | .callB => { s with callB := v.setWidth 16 }
  | .locLen => { s with locLen := v.setWidth 8 }
  | .loc => { s with loc := v }
  | .power => { s with power := v }
  | .csCode => { s with csCode := v }
  | .lpCode => { s with lpCode := v }
  | .chrIn => { s with chrIn := v.setWidth 8 }
  | .chrOut => s
  | .payload w => { s with payload := setWordAt s.payload w v }
  | .code w => { s with code := setWordAt s.code w v }
  | .ilv w => { s with ilv := setWordAt s.ilv w v }
  | .sym _ => s
  | .unmapped => s

/-- A host write (20_memory.md R62, R69; 70_reset_and_hazards.md R244). An access not admitted, and any write while BUSY = 1,
sets HOSTFAULT and has no other effect. -/
def hostWrite (bits : Nat) (off : Offset) (v : Word) (s : State) : State :=
  if admitted bits off then
    if s.status.busy then setHostFault s else (regAt off).store s v
  else setHostFault s

/-- The state from which the next event has been taken, leaving the events `rest` (log 2). -/
def takeEvent (s : State) (rest : List HostEvent) : State := { s with events := rest }

/-- The reset input (70_reset_and_hazards.md R240): every register takes its reset value and a pending command is abandoned;
"Reset does not clear HOSTFAULT". The model's own fields go on. -/
def applyReset (s : State) : State :=
  { State.reset with hostFault := s.hostFault, events := s.events, rdata := s.rdata, draws := s.draws }

/-! ### The host bus -/

/-- The window offset of a byte address on the host bus, for a window at `base`; an address outside `base` to `base + 0xFF`
"is not addressed to the block" (20_memory.md R60, R62; log 7). DESIGN CHOICE (log 10): `addr` is the access's first byte, and it
alone decides. R62 does not say what an access does that begins below the window and ends inside it; here it gives no event, so no
HOSTFAULT either. -/
def busOffset (base addr : Nat) : Option Offset :=
  if base ≤ addr ∧ addr < base + Config.windowBytes then some (BitVec.ofNat 8 (addr - base)) else none

/-- `MemRead(addr, bits / 8)` as the block sees it, for a window at `base` (20_memory.md R60). -/
def memRead (base addr bits : Nat) : Option HostEvent := (busOffset base addr).map fun off => .read bits off

/-- `MemWrite(addr, bits / 8, v)` as the block sees it, for a window at `base` (20_memory.md R60). -/
def memWrite (base addr bits : Nat) (v : Word) : Option HostEvent :=
  (busOffset base addr).map fun off => .write bits off v

end Sys2Proof.Machine
end

