-- ==== Sys2Proof/Machine/ConvEncoder.lean ====
section
/-! DEFINITION. The Convolutional Encoder: CONV (42_conv_encoder.md R160 to R169). -/

namespace Sys2Proof.Machine

/-- POLY1: bit k is the tap on SR[k] (42_conv_encoder.md R160). -/
def poly1 : Word := 0xF2D05351

/-- POLY2 (42_conv_encoder.md R160). -/
def poly2 : Word := 0xE4613C47

/-- The XOR of bits 0 to n - 1 of `x`. -/
def parityBelow (x : Word) : Nat → Bool
  | 0 => false
  | n + 1 => xor (x.getLsbD n) (parityBelow x n)

/-- "the population parity (XOR-fold of all set bits ...)" (42_conv_encoder.md R161). -/
def parity (x : Word) : Bool := parityBelow x 32

/-- Every cell PAYLOAD[0..49] is exactly 0 or 1 (42_conv_encoder.md R162). -/
def payloadBinary (p : PayloadBuf) : Bool :=
  (List.range Config.payloadLength).all fun i => payloadCell p i == 0 || payloadCell p i == 1

/-- u[t]: PAYLOAD[t] for t = 0..49 and 0 for the tail (42_conv_encoder.md R163). -/
def paddedBit (p : PayloadBuf) (t : Nat) : Bool := t < Config.payloadLength && payloadCell p t == 1

/-- SR <- ((SR << 1) | u) mod 2^32 (42_conv_encoder.md R164). -/
def shiftIn (sr : Word) (u : Bool) : Word := (sr <<< 1) ||| (BitVec.ofBool u).setWidth 32

/-- A bit buffer with bit `b` ORed in at index `n`. -/
def orBit (buf : BitBuf) (n : Nat) (b : Bool) : BitBuf := buf ||| ((BitVec.ofBool b).setWidth 162 <<< n)

/-- SR and the code bits after the first `n` steps on the input bits `u`: step t shifts in u[t] and emits code[2t] and
code[2t+1] (42_conv_encoder.md R164, R165, R166). -/
def convSteps (u : Nat → Bool) : Nat → Word × BitBuf
  | 0 => (0, 0)
  | t + 1 =>
    match convSteps u t with
    | (sr, code) =>
      let sr := shiftIn sr (u t)
      (sr, orBit (orBit code (2 * t) (parity (sr &&& poly1))) (2 * t + 1) (parity (sr &&& poly2)))

/-- `conv_encode` (42_conv_encoder.md R167): the last value of SR and the 162 code bits, or ConvolutionBitSetError before any
output is produced. -/
def convEncode (p : PayloadBuf) : Except ErrCode (Word × BitBuf) :=
  if payloadBinary p then .ok (convSteps (paddedBit p) Config.paddedLength) else .error .convBitSet

/-- CONV (42_conv_encoder.md R169); SR keeps what the last step left (log 3). -/
def execConv (s : State) : Host.Outcome State Fault Refusal :=
  match convEncode s.payload with
  | .error e => raiseErr s e
  | .ok (sr, code) => succeed { s with code := code, sr := sr }

end Sys2Proof.Machine
end

