-- ==== Sys2Proof/Machine/FrameAssembler.lean ====
section
/-! DEFINITION. The Frame Assembler: ASSEMBLE (44_frame_assembler.md R190 to R192). -/

namespace Sys2Proof.Machine

/-- Rows i = 0 to 70 of the table of 44_frame_assembler.md R190. -/
def syncRowsLow : List Nat :=
  [1, 1, 0, 0, 0, 0, 0, 0, 1, 0] ++ [0, 0, 1, 1, 1, 0, 0, 0, 1, 0] ++ [0, 1, 0, 1, 1, 1, 1, 0, 0, 0] ++
  [0, 0, 0, 0, 1, 0, 0, 1, 0, 1] ++ [0, 0, 0, 0, 0, 0, 1, 0, 1, 1] ++ [0, 0, 1, 1, 0, 1, 0, 0, 0, 1] ++
  [1, 0, 1, 0, 0, 0, 0, 1, 1, 0] ++ [1, 0, 1, 0, 1, 0, 1, 0, 0, 1]

/-- Rows i = 80 to 160 of the table of 44_frame_assembler.md R190. -/
def syncRowsHigh : List Nat :=
  [0, 0, 1, 0, 1, 1, 0, 0, 0, 1] ++ [1, 0, 1, 0, 1, 0, 0, 0, 1, 0] ++ [0, 0, 0, 0, 1, 0, 0, 1, 0, 0] ++
  [1, 1, 1, 0, 1, 1, 0, 0, 1, 1] ++ [0, 1, 0, 0, 0, 1, 1, 1, 0, 0] ++ [0, 0, 0, 1, 0, 1, 0, 0, 1, 1] ++
  [0, 0, 0, 0, 0, 0, 0, 1, 1, 0] ++ [1, 0, 1, 1, 0, 0, 0, 1, 1, 0] ++ [0, 0]

/-- SYNC[0..161] (44_frame_assembler.md R190). -/
def syncList : List Nat := syncRowsLow ++ syncRowsHigh

/-- SYNC[i], for i = 0..161 (44_frame_assembler.md R190). -/
def syncAt (i : Nat) : Nat := syncList.getD i 0

/-- `assemble`: sym[i] = SYNC[i] + 2 * ilv[i], a 2-bit value (44_frame_assembler.md R191). -/
def assembleSymbols (ilv : BitBuf) : SymBuf :=
  cellsOfFn 2 324 fun i => BitVec.ofNat 2 (syncAt i + 2 * (ilv.getLsbD i).toNat)

/-- ASSEMBLE (44_frame_assembler.md R192). -/
def execAssemble (s : State) : Host.Outcome State Fault Refusal :=
  succeed { s with sym := assembleSymbols s.ilv }

end Sys2Proof.Machine
end

