-- ==== Sys2Proof/Machine/Interleaver.lean ====
section
/-! DEFINITION. The Interleaver: INTERLEAVE (43_interleaver.md R180 to R185). -/

namespace Sys2Proof.Machine

/-- rev8(b)[k] = b[7-k] (43_interleaver.md R180). -/
def rev8 (b : Byte) : Byte := bitsOfFn (fun k => b.getLsbD (7 - k)) 8

/-- PERM[0..161]: the reversed byte values below 162, in ascending order of the byte (43_interleaver.md R181). -/
def permList : List Nat :=
  ((List.range 256).map fun b => (rev8 (BitVec.ofNat 8 b)).toNat).filter (· < Config.codeLength)

/-- PERM[p], for p = 0..161 (43_interleaver.md R181). -/
def perm (p : Nat) : Nat := permList.getD p 0

/-- The buffer `buf` with bit `code[p + k]` ORed in at position `js[k]`, for every k. -/
def scatterBits (code : BitBuf) : List Nat → Nat → BitBuf → BitBuf
  | [], _, buf => buf
  | j :: js, p, buf => scatterBits code js (p + 1) (buf ||| ((BitVec.ofBool (code.getLsbD p)).setWidth 162 <<< j))

/-- `interleave`: ilv[PERM[p]] = code[p] for p = 0..161 (43_interleaver.md R183). -/
def interleaveBits (code : BitBuf) : BitBuf := scatterBits code permList 0 0

/-- INTERLEAVE (43_interleaver.md R185). -/
def execInterleave (s : State) : Host.Outcome State Fault Refusal :=
  succeed { s with ilv := interleaveBits s.code }

end Sys2Proof.Machine
end

