-- ==== Sys2Proof/Machine/CharEncoder.lean ====
section
/-! DEFINITION. The Character Encoder: CHR_ALNUM and CHR_ALPHA (40_char_encoder.md R110 to R115). -/

namespace Sys2Proof.Machine

/-- The class "digit": 0x30 to 0x39 (40_char_encoder.md R110). -/
def isDigit (c : Byte) : Bool := 0x30 ≤ c.toNat && c.toNat ≤ 0x39

/-- The class "letter": 0x41 to 0x5A (40_char_encoder.md R110). -/
def isLetter (c : Byte) : Bool := 0x41 ≤ c.toNat && c.toNat ≤ 0x5A

/-- The class "space": 0x20 (40_char_encoder.md R110). -/
def isSpace (c : Byte) : Bool := c.toNat == 0x20

/-- The normalisation the source assigns to callers (40_char_encoder.md R111). -/
def upper (c : Byte) : Byte := if 0x61 ≤ c.toNat ∧ c.toNat ≤ 0x7A then c - 0x20 else c

/-- `encode_alnum`: 0 to 36 (40_char_encoder.md R112). -/
def encodeAlnum (c : Byte) : Nat :=
  if isDigit c then c.toNat - 0x30
  else if isLetter c then c.toNat - 0x41 + 10
  else if isSpace c then 36
  else 0

/-- `encode_alpha`: 0 to 26 (40_char_encoder.md R113). -/
def encodeAlpha (c : Byte) : Nat :=
  if isLetter c then c.toNat - 0x41
  else if isSpace c then 26
  else 0

/-- CHR_ALNUM (40_char_encoder.md R114): CHR_OUT <- encode_alnum(CHR_IN.CH), no case folding. -/
def execChrAlnum (s : State) : Host.Outcome State Fault Refusal :=
  succeed { s with chrOut := BitVec.ofNat 6 (encodeAlnum s.chrIn) }

/-- CHR_ALPHA (40_char_encoder.md R115): CHR_OUT <- encode_alpha(CHR_IN.CH), no case folding. -/
def execChrAlpha (s : State) : Host.Outcome State Fault Refusal :=
  succeed { s with chrOut := BitVec.ofNat 6 (encodeAlpha s.chrIn) }

end Sys2Proof.Machine
end

