-- ==== Sys2Proof/Machine/SourceFrame.lean ====
section
/-! DEFINITION. The Source Frame Builder: SRC_CALLSIGN, SRC_LOCPWR and PACK (41_source_frame.md R120 to R138). -/

namespace Sys2Proof.Machine

/-! ### The callsign -/

/-- The working buffer b[0..5] (41_source_frame.md R122). -/
structure CallBuf where
  b0 : Byte
  b1 : Byte
  b2 : Byte
  b3 : Byte
  b4 : Byte
  b5 : Byte
  deriving DecidableEq, Repr

/-- b[k] = upper(CALL[k]) for k < n and a space above; CALL[k] for k >= n is never read (41_source_frame.md R120, R122). -/
def padChar (n : Nat) (call : Nat → Byte) (k : Nat) : Byte := if k < n then upper (call k) else 0x20

/-- Step 2, padding (41_source_frame.md R122). -/
def padCallsign (n : Nat) (call : Nat → Byte) : CallBuf :=
  ⟨padChar n call 0, padChar n call 1, padChar n call 2, padChar n call 3, padChar n call 4, padChar n call 5⟩

/-- Step 3, realignment, at most once; the old b[5] is dropped (41_source_frame.md R123). -/
def realign (b : CallBuf) : CallBuf := if isDigit b.b2 then b else ⟨0x20, b.b0, b.b1, b.b2, b.b3, b.b4⟩

/-- Step 4, prefix: (space, letter or digit), letter, digit (41_source_frame.md R124). -/
def prefixOk (b : CallBuf) : Bool :=
  (isSpace b.b0 || isLetter b.b0 || isDigit b.b0) && isLetter b.b1 && isDigit b.b2

/-- Step 5, suffix: the shapes LLL, LLS, LSS and SSS (41_source_frame.md R125). -/
def suffixOk (b : CallBuf) : Bool :=
  (isLetter b.b3 || isSpace b.b3) && (isLetter b.b4 || isSpace b.b4) && (isLetter b.b5 || isSpace b.b5) &&
    !(isSpace b.b3 && isLetter b.b4) && !(isSpace b.b3 && isLetter b.b5) && !(isSpace b.b4 && isLetter b.b5)

/-- Step 6, the mixed-radix code (41_source_frame.md R126). -/
def mixedRadix (b : CallBuf) : Nat :=
  let acc := encodeAlnum b.b0
  let acc := acc * 36 + encodeAlnum b.b1
  let acc := acc * 10 + encodeAlnum b.b2
  let acc := acc * 27 + encodeAlpha b.b3
  let acc := acc * 27 + encodeAlpha b.b4
  acc * 27 + encodeAlpha b.b5

/-- `encode_callsign`: the checks in step order, the first failing one decides (41_source_frame.md R121, R127). -/
def encodeCallsign (n : Nat) (call : Nat → Byte) : Except ErrCode Nat :=
  if n < Config.callsignMin ∨ Config.callsignMax < n then .error .callsign
  else
    let b := realign (padCallsign n call)
    if !prefixOk b then .error .callsign
    else if !suffixOk b then .error .callsign
    else .ok (mixedRadix b)

/-! ### The locator and the power -/

/-- 'A' to 'R' (41_source_frame.md R129). -/
def isLocLetter (c : Byte) : Bool := 0x41 ≤ c.toNat && c.toNat ≤ 0x52

/-- Step 2, character classes (41_source_frame.md R129). -/
def locatorOk (l : Nat → Byte) : Bool := isLocLetter (l 0) && isLocLetter (l 1) && isDigit (l 2) && isDigit (l 3)

/-- Step 4, "using signed arithmetic to avoid underflow, then cast to unsigned" (41_source_frame.md R130, R131). -/
def locatorCode (l : Nat → Byte) : Nat :=
  let enc0 : Int := encodeAlpha (l 0)
  let enc1 : Int := encodeAlpha (l 1)
  let enc2 : Int := encodeAlnum (l 2)
  let enc3 : Int := encodeAlnum (l 3)
  ((179 - 10 * enc0 - enc2) * 180 + 10 * enc1 + enc3).toNat

/-- `encode_locator_power`: length, character classes, then power (41_source_frame.md R128 to R134). -/
def encodeLocatorPower (m : Nat) (loc : Nat → Byte) (p : Nat) : Except ErrCode Nat :=
  if m ≠ Config.locatorLength then .error .locator
  else
    let l := fun k => upper (loc k)
    if !locatorOk l then .error .locator
    else if Config.powerMax < p then .error .power
    else .ok (locatorCode l * 128 + 64 + p)

/-! ### Packing -/

/-- `combined`, in 64 bits: no bit of either code is masked (41_source_frame.md R135). -/
def packCombined (cs lp : Word) : BitVec 64 := (cs.setWidth 64 <<< 22) ||| lp.setWidth 64

/-- `pack`: cell i is bit 49 - i of `combined`, 0x00 or 0x01 (41_source_frame.md R135, R138). -/
def packPayload (cs lp : Word) : PayloadBuf :=
  cellsOfFn 8 400 fun i => (BitVec.ofBool ((packCombined cs lp).getLsbD (49 - i))).setWidth 8

/-! ### The commands -/

/-- SRC_CALLSIGN (41_source_frame.md R136). -/
def execSrcCallsign (s : State) : Host.Outcome State Fault Refusal :=
  match encodeCallsign (callLength s) (callChar s) with
  | .error e => raiseErr s e
  | .ok r => succeed { s with csCode := BitVec.ofNat 32 r }

/-- SRC_LOCPWR (41_source_frame.md R137). -/
def execSrcLocpwr (s : State) : Host.Outcome State Fault Refusal :=
  match encodeLocatorPower (locLength s) (locChar s) (powerValue s) with
  | .error e => raiseErr s e
  | .ok r => succeed { s with lpCode := BitVec.ofNat 32 r }

/-- PACK (41_source_frame.md R138). -/
def execPack (s : State) : Host.Outcome State Fault Refusal :=
  succeed { s with payload := packPayload s.csCode s.lpCode }

end Sys2Proof.Machine
end

