-- ==== Sys2Proof/Machine/EncodeTop.lean ====
section
/-! DEFINITION. The top-level encode: ENCODE (45_encode_top.md R200 to R203). -/

namespace Sys2Proof.Machine

/-- What `encode_message` returns on success, with the last value of SR (45_encode_top.md R200). -/
structure EncodedMessage where
  cs   : Word
  lp   : Word
  pl   : PayloadBuf
  code : BitBuf
  ilv  : BitBuf
  sym  : SymBuf
  sr   : Word
  deriving DecidableEq, Repr

/-- `encode_message`: the stages in order, stopping at the first error (45_encode_top.md R200). -/
def encodeMessage (n : Nat) (call : Nat → Byte) (m : Nat) (loc : Nat → Byte) (p : Nat) : Except ErrCode EncodedMessage :=
  match encodeCallsign n call with
  | .error e => .error e
  | .ok cs =>
    match encodeLocatorPower m loc p with
    | .error e => .error e
    | .ok lp =>
      let cs := BitVec.ofNat 32 cs
      let lp := BitVec.ofNat 32 lp
      let pl := packPayload cs lp
      match convEncode pl with
      | .error e => .error e
      | .ok (sr, code) =>
        let ilv := interleaveBits code
        .ok ⟨cs, lp, pl, code, ilv, assembleSymbols ilv, sr⟩

/-- ENCODE (45_encode_top.md R201): every result register on success, STATUS and PEND only on an error. -/
def execEncode (s : State) : Host.Outcome State Fault Refusal :=
  match encodeMessage (callLength s) (callChar s) (locLength s) (locChar s) (powerValue s) with
  | .error e => raiseErr s e
  | .ok r =>
    succeed { s with csCode := r.cs, lpCode := r.lp, payload := r.pl, code := r.code, ilv := r.ilv, sym := r.sym, sr := r.sr }

end Sys2Proof.Machine
end

