-- ==== Sys2Proof/Machine/Dispatch.lean ====
section
/-! DEFINITION. One arm per command: the function each opcode runs at the completion step (70_reset_and_hazards.md R249). -/

namespace Sys2Proof.Machine

def exec (i : Instr) (s : State) : Host.Outcome State Fault Refusal :=
  match i with
  | .encode => Sys2Proof.Machine.execEncode s
  | .srcCallsign => Sys2Proof.Machine.execSrcCallsign s
  | .srcLocpwr => Sys2Proof.Machine.execSrcLocpwr s
  | .pack => Sys2Proof.Machine.execPack s
  | .conv => Sys2Proof.Machine.execConv s
  | .interleave => Sys2Proof.Machine.execInterleave s
  | .assemble => Sys2Proof.Machine.execAssemble s
  | .chrAlnum => Sys2Proof.Machine.execChrAlnum s
  | .chrAlpha => Sys2Proof.Machine.execChrAlpha s

end Sys2Proof.Machine
end

