-- ==== Sys2Proof/Machine/Lifecycle.lean ====
section
/-! DEFINITION. The steps of the block besides reset: a host access and the core's completion step
(70_reset_and_hazards.md R243, R249), and the host's program notation (30_encoding.md R97). -/

namespace Sys2Proof.Machine

/-- The core's completion step for the pending opcode (70_reset_and_hazards.md R249): a reserved opcode completes with
IllegalCommand (60_exceptions.md R215). -/
def completionStep (op : Opcode) (s : State) : Host.Outcome State Fault Refusal :=
  match decodeOp op with
  | .ok i => exec i s
  | .error _ => raiseErr s .illegal

/-- The core's turn: its completion step "is enabled exactly when PEND ≠ none" (70_reset_and_hazards.md R249); with nothing
pending the block is idle and "its state persists" (60_exceptions.md R226). -/
def coreStep (s : State) : Host.Outcome State Fault Refusal :=
  match s.pend with
  | none => .next s
  | some op => completionStep op s

/-- What one event does to the state from which it has been taken (70_reset_and_hazards.md R243). -/
def runEvent (e : HostEvent) (s : State) : Host.Outcome State Fault Refusal :=
  match e with
  | .read bits off => .next (hostRead bits off s)
  | .write bits off v => .next (hostWrite bits off v s)
  | .reset => .next (applyReset s)
  | .coreTurn => coreStep s

/-- In a run with HOSTFAULT = 1 only reset still has an effect the spec gives (70_reset_and_hazards.md R240); every other step
is refused a meaning (60_exceptions.md R216; log 1). -/
def guardedEvent (e : HostEvent) (s : State) : Host.Outcome State Fault Refusal :=
  if s.hostFault ∧ e ≠ .reset then .fault .hostFault else runEvent e s

/-- One step of the block. The next event is taken and run; with no event left the core takes its turn, so a pending command
always completes (70_reset_and_hazards.md R248; log 2). -/
def nextStep (s : State) : Host.Outcome State Fault Refusal :=
  match s.events with
  | [] => guardedEvent .coreTurn s
  | e :: rest => guardedEvent e (takeEvent s rest)

/-- The state `s` with the command word `v` accepted and the core's turn next (log 8). -/
def placeCommand (s : State) (v : Word) : State :=
  { acceptCommand s v with events := .coreTurn :: s.events, hostFault := false }

/-! ### The host's program notation (30_encoding.md R97) -/

/-- `W <REG>, <value>`. -/
def hostW (r : Reg) (v : Word) : HostEvent := .write 32 r.offset v

/-- `R <REG>`. -/
def hostR (r : Reg) : HostEvent := .read 32 r.offset

/-- `CMD <MNEMONIC>`. -/
def hostCmd (i : Instr) : HostEvent := hostW .cmd (encode i)

/-- `WAIT` after a command, in the execution in which `polls` reads of STATUS see BUSY = 1 before the completion step and one
read sees BUSY = 0 after it; the number is unknown and finite (70_reset_and_hazards.md R248). -/
def hostWait (polls : Nat) : List HostEvent := List.replicate polls (hostR .status) ++ [.coreTurn, hostR .status]

/-- The character of a text at index k, 0x00 past its end. -/
def textChar (text : List Byte) (k : Nat) : Byte := text.getD k 0

/-- Four characters in a register, the first in bits [7:0]. -/
def textWord (text : List Byte) (k : Nat) : Word :=
  textChar text (k + 3) ++ textChar text (k + 2) ++ textChar text (k + 1) ++ textChar text k

/-- `LOADCALL "<text>"`: the length, characters 0 to 3 and characters 4 and 5; "Characters beyond the sixth are not
written". -/
def loadCall (text : List Byte) : List HostEvent :=
  [hostW .callLen (BitVec.ofNat 32 text.length), hostW .callA (textWord text 0),
    hostW .callB ((textChar text 5 ++ textChar text 4).setWidth 32)]

/-- `LOADLOC "<text>"`: the length and characters 0 to 3. -/
def loadLoc (text : List Byte) : List HostEvent :=
  [hostW .locLen (BitVec.ofNat 32 text.length), hostW .loc (textWord text 0)]

end Sys2Proof.Machine
end

