-- ==== Sys2Proof/Machine/Step.lean ====
section
/-! DEFINITION. One step of the machine, and where a command word is placed so that the next step runs it. -/

namespace Sys2Proof.Machine

/-- One step (70_reset_and_hazards.md R243). -/
def step (s : State) : Host.Outcome State Fault Refusal := nextStep s

/-- `s` with the command word whose low `nbits` bits are `w` accepted and the core's turn next, so that the next step is that
command's completion step (log 8). -/
def State.withFetchWord (s : State) (nbits w : Nat) : State := placeCommand s (tableWord nbits w)

end Sys2Proof.Machine
end

