-- ==== Sys2Proof/Safety.lean ====
section
/-! DEFINITION. What counts as a final state and as a run with a meaning, and the invariant of the block. -/

namespace Sys2Proof.Machine

/-- "A final state has PEND = none and HOSTFAULT = 0" (70_reset_and_hazards.md R250), and the host has made its last access. -/
def State.final (s : State) : Bool := s.events.isEmpty && s.pend.isNone && !s.hostFault

/-- A claim about a run says something only while HOSTFAULT = 0 (10_state.md R43). -/
def State.safe (s : State) : Bool := !s.hostFault

/-- The event cannot set HOSTFAULT whatever the state: an admitted read, the reset input or the core's turn
(20_memory.md R62, 70_reset_and_hazards.md R244, R247). -/
def HostEvent.harmless : HostEvent → Bool
  | .read bits off => admitted bits off
  | .write _ _ _ => false
  | .reset => true
  | .coreTurn => true

/-- What every reachable state satisfies. -/
structure State.Inv (s : State) : Prop where
  /-- "STATUS.BUSY = 1 exactly when PEND ≠ none" (10_state.md R41). -/
  busy_iff_pend : s.status.busy = s.pend.isSome
  /-- "BUSY = 1 with DONE = 1 never occurs" (10_state.md R25). -/
  not_busy_and_done : ¬(s.status.busy = true ∧ s.status.done = true)
  /-- ERR is 0 while no command has completed since the last acceptance or reset (10_state.md R25). -/
  err_none_unless_done : s.status.done = false → s.status.err = .none
  /-- The pending command is the last one written to CMD (10_state.md R24, 70_reset_and_hazards.md R246). -/
  pend_is_cmd : ∀ op, s.pend = some op → s.cmdOp = op
  /-- CHR_OUT holds a character code, 0 to 36 (10_state.md R35). -/
  chrOut_le : s.chrOut.toNat ≤ 36
  /-- SYM is as reset left it, or carries the sync vector in bit 0 of every symbol (10_state.md R39,
  44_frame_assembler.md R191). -/
  sym_carries_sync : s.sym = 0 ∨ ∀ i < 162, (symCell s.sym i).toNat % 2 = syncAt i
  /-- SR between commands holds at most u[49], in bit 31: the tail has flushed the rest (42_conv_encoder.md R168; log 3). -/
  sr_flushed : ∀ j < 31, s.sr.getLsbD j = false

end Sys2Proof.Machine
end

