-- ==== Sys2Proof/WellFormed.lean ====
section
/-! DEFINITION. What may be written down but is not well formed: a host event the spec does not admit. A command has no
operand field (30_encoding.md R90), so every term of `Instr` is well formed. -/

namespace Sys2Proof

/-- Every command is well formed: there is no field to check (30_encoding.md R90). -/
def Instr.wellFormed (_ : Instr) : Bool := true

/-- A host access is 32 bits wide at an offset that is a multiple of 4 (20_memory.md R62); the reset input and the core's
turn carry nothing to check. -/
def Machine.HostEvent.wellFormed : Machine.HostEvent → Bool
  | .read bits off => Machine.admitted bits off
  | .write bits off _ => Machine.admitted bits off
  | .reset => true
  | .coreTurn => true

end Sys2Proof
end

