-- ==== Sys2Proof/Certificates/Slice0/Obligations.lean ====
section
/-! DEFINITION. The statements about WSPR-ENC, from the numbered rules of spec/. A statement is over every state, also one no run
reaches, unless it names the invariant. -/

open Sys2Proof Sys2Proof.Machine

/-! ### Encoding -/

/-- 30_encoding.md R92: each opcode of the map, as the word a host writes, decodes to its command; 0x105 is CONV and the first
reserved values on either side are refused by name (R98). -/
def Obligations.OpcodeMapWordsDecode : Prop :=
  decode 0x00000001 = .ok .encode ∧ decode 0x00000002 = .ok .srcCallsign ∧ decode 0x00000003 = .ok .srcLocpwr ∧
  decode 0x00000004 = .ok .pack ∧ decode 0x00000005 = .ok .conv ∧ decode 0x00000006 = .ok .interleave ∧
  decode 0x00000007 = .ok .assemble ∧ decode 0x00000008 = .ok .chrAlnum ∧ decode 0x00000009 = .ok .chrAlpha ∧
  decode 0x00000105 = .ok .conv ∧ decode 0x00000000 = .error (.reservedOpcode 0x00) ∧
  decode 0x0000000A = .error (.reservedOpcode 0x0A)

/-- 30_encoding.md R91, R92, R93: decoding and encoding agree on every command and on all 2^32 words. A word decodes to a command
exactly when its low byte is that command's opcode, whatever the bits above hold, and the words whose low byte is 0x00 or 0x0A
to 0xFF are exactly the ones refused, each with its own opcode. -/
def Obligations.DecodeEncodeAgreeOnEveryWord : Prop :=
  (∀ i : Instr, decode (encode i) = .ok i ∧ (encode i).toNat < 256) ∧
  (∀ (w : Word) (i : Instr), decode w = .ok i ↔ w.toNat % 256 = (encode i).toNat) ∧
  (∀ (w : Word) (op : Opcode),
    decode w = .error (.reservedOpcode op) ↔ (w.toNat % 256 = 0 ∨ 10 ≤ w.toNat % 256) ∧ op.toNat = w.toNat % 256)

/-! ### Steps -/

/-- 70_reset_and_hazards.md R249: when the core's turn is the next event and the pending opcode decodes to a command, the step is
that command run against the current state. That the core also takes its turn when no event is left (the clause `events = []`),
and the list of events itself, are the model's choice (log 2). -/
def Obligations.StepRunsPendingCommand : Prop :=
  ∀ (s : State) (op : Opcode) (i : Instr),
    s.hostFault = false → s.pend = some op → decode (op.setWidth 32) = .ok i →
    (s.events = [] → step s = exec i s) ∧
    (∀ rest, s.events = .coreTurn :: rest → step s = exec i { s with events := rest })

/-- The model's own loader (log 8): after `withFetchWord` the next step runs exactly the decoded command, in a state where that
command has been accepted. -/
def Obligations.PlacedWordRunsNext : Prop :=
  ∀ (s : State) (nbits w : Nat) (i : Instr),
    decodeTableWord nbits w = some i →
    step (s.withFetchWord nbits w) =
      exec i { s with cmdOp := opcodeOf i, status := ⟨true, false, .none⟩, pend := some (opcodeOf i), hostFault := false }

/-- 60_exceptions.md R215: a reserved opcode completes with IllegalCommand, ERR = 0xF, and nothing but STATUS and PEND changes.
That the core also takes its turn when no event is left (the clause `events = []`) is the model's choice (log 2). -/
def Obligations.ReservedOpcodeCompletesIllegal : Prop :=
  ∀ (s : State) (op : Opcode),
    s.hostFault = false → s.pend = some op → (op.toNat = 0 ∨ 0x0A ≤ op.toNat) →
    (s.events = [] → ∃ t, step s = .next t ∧
      t = { s with status := ⟨false, true, .illegal⟩, pend := none } ∧ Reg.read t .status = 0xF2 ∧
      Reg.read t .cmd = s.cmdOp.setWidth 32) ∧
    (∀ rest, s.events = .coreTurn :: rest → ∃ t, step s = .next t ∧
      t = { s with status := ⟨false, true, .illegal⟩, pend := none, events := rest } ∧ Reg.read t .status = 0xF2 ∧
      Reg.read t .cmd = s.cmdOp.setWidth 32)

/-- The model's choice of log 2: with nothing pending and no host fault, a core turn, and a step with no event left, answer a next
state in which the block is as it was. (The spec has no such step: its completion step is enabled only when PEND ≠ none,
70_reset_and_hazards.md R249; that an idle block's state persists is 60_exceptions.md R226.) -/
def Obligations.IdleBlockKeepsItsState : Prop :=
  ∀ s : State, s.hostFault = false → s.pend = none →
    (s.events = [] → step s = .next s) ∧
    (∀ rest, s.events = .coreTurn :: rest → step s = .next { s with events := rest })

/-- 70_reset_and_hazards.md R246: a host write to CMD while BUSY = 0 accepts the command v[7:0]; a second one while BUSY = 1 is a
host fault and nothing else. -/
def Obligations.CommandWriteIsAccepted : Prop :=
  ∀ (s : State) (v : Word) (rest : List HostEvent),
    s.hostFault = false → s.events = .write 32 0x00 v :: rest →
    (s.status.busy = false → step s = .next { s with
      cmdOp := v.setWidth 8, status := ⟨true, false, .none⟩, pend := some (v.setWidth 8), events := rest }) ∧
    (s.status.busy = true → step s = .next { s with hostFault := true, events := rest })

/-- 70_reset_and_hazards.md R244: any host write while BUSY = 1, of any width at any offset, sets HOSTFAULT and has no other
effect: the pending command and its operands are unchanged. -/
def Obligations.WriteWhileBusyIsHostFault : Prop :=
  ∀ (s : State) (bits : Nat) (off : Offset) (v : Word) (rest : List HostEvent),
    s.hostFault = false → s.status.busy = true → s.events = .write bits off v :: rest →
    step s = .next { s with hostFault := true, events := rest }

/-- 20_memory.md R62: an access that is not 32 bits wide, or not at a multiple of 4, sets HOSTFAULT, has no effect, and a read
returns no value (`rdata` is the model's own output field, log 4). -/
def Obligations.InadmissibleAccessIsHostFault : Prop :=
  ∀ (s : State) (bits : Nat) (off : Offset) (v : Word) (rest : List HostEvent),
    s.hostFault = false → (bits ≠ 32 ∨ off.toNat % 4 ≠ 0) →
    (s.events = .read bits off :: rest → step s = .next { s with hostFault := true, rdata := none, events := rest }) ∧
    (s.events = .write bits off v :: rest → step s = .next { s with hostFault := true, events := rest })

/-- 60_exceptions.md R216: HOSTFAULT is set by exactly two causes: an access that is not admitted, and a host write while
BUSY = 1. -/
def Obligations.HostFaultHasTwoCauses : Prop :=
  ∀ s t : State, s.hostFault = false → step s = .next t →
    (t.hostFault = true ↔
      (∃ bits off rest, s.events = .read bits off :: rest ∧ (bits ≠ 32 ∨ off.toNat % 4 ≠ 0)) ∨
      (∃ bits off v rest, s.events = .write bits off v :: rest ∧
        (bits ≠ 32 ∨ off.toNat % 4 ≠ 0 ∨ s.status.busy = true)))

/-- 10_state.md R43: HOSTFAULT starts at 0; once set it stays set: no step clears it, and reset does not clear it; a state with
HOSTFAULT = 1 is never final. 70_reset_and_hazards.md R250: a state is final exactly when the host has made its last access,
PEND = none and HOSTFAULT = 0. That "the host has made its last access" is the empty list of events is the model's choice (log 2). -/
def Obligations.HostFaultStaysSet : Prop :=
  State.reset.hostFault = false ∧
  (∀ s t : State, s.hostFault = true → step s = .next t → t.hostFault = true) ∧
  (∀ (s : State) (rest : List HostEvent), s.hostFault = true → s.events = .reset :: rest →
    ∃ t, step s = .next t ∧ t.hostFault = true) ∧
  (∀ s : State, s.hostFault = true → s.final = false) ∧
  (∀ s : State, s.final = true ↔ s.events = [] ∧ s.pend = none ∧ s.hostFault = false)

/-- The model's choice of log 1 ("the model refuses to continue", 00_scope.md glossary): in a run with HOSTFAULT = 1 every step
whose event is not reset stops with the fault `hostFault`. -/
def Obligations.HostFaultStopsEveryStepButReset : Prop :=
  ∀ s : State, s.hostFault = true → (∀ rest, s.events ≠ .reset :: rest) → step s = .fault .hostFault

/-! ### Host reads and writes -/

/-- 20_memory.md R69: a host write to an RW register other than CMD while BUSY = 0 stores v into every non-reserved bit of it, and
nothing else changes. -/
def Obligations.WriteStoresNonReservedBits : Prop :=
  ∀ (s : State) (off : Offset) (v : Word) (rest : List HostEvent) (r : Reg),
    s.hostFault = false → s.status.busy = false → off.toNat % 4 = 0 → s.events = .write 32 off v :: rest → r = regAt off →
    r ≠ .cmd → r ≠ .status → r ≠ .chrOut → (∀ w, r ≠ .sym w) → r ≠ .unmapped →
    ∃ t, step s = .next t ∧ Reg.read t r = v &&& r.mask ∧ (∀ r', r' ≠ r → Reg.read t r' = Reg.read s r') ∧
      t.status = s.status ∧ t.pend = s.pend ∧ t.sr = s.sr ∧ t.hostFault = s.hostFault ∧ t.events = rest ∧
      t.rdata = s.rdata ∧ t.draws = s.draws

/-- 20_memory.md R68, R67: a host write to an RO register or to an unmapped offset while BUSY = 0 changes no state; while BUSY = 1
it is a host fault. -/
def Obligations.ReadOnlyWriteIsIgnored : Prop :=
  ∀ (s : State) (off : Offset) (v : Word) (rest : List HostEvent),
    s.hostFault = false → off.toNat % 4 = 0 → s.events = .write 32 off v :: rest →
    (off.toNat = 0x004 ∨ off.toNat = 0x02C ∨ (0x0C0 ≤ off.toNat ∧ off.toNat ≤ 0x0E8) ∨
      (0x030 ≤ off.toNat ∧ off.toNat ≤ 0x03C) ∨ (0x074 ≤ off.toNat ∧ off.toNat ≤ 0x07C) ∨
      (0x098 ≤ off.toNat ∧ off.toNat ≤ 0x09C) ∨ (0x0B8 ≤ off.toNat ∧ off.toNat ≤ 0x0BC) ∨
      (0x0EC ≤ off.toNat ∧ off.toNat ≤ 0x0FC)) →
    (s.status.busy = false → step s = .next { s with events := rest }) ∧
    (s.status.busy = true → step s = .next { s with hostFault := true, events := rest })

/-- 20_memory.md R67: every reserved bit of every register, and every bit of an unmapped word, reads as zero. -/
def Obligations.ReservedBitsReadAsZero : Prop :=
  ∀ s : State,
    (Reg.read s .cmd).toNat < 2 ^ 8 ∧ (Reg.read s .status).toNat < 2 ^ 8 ∧ (Reg.read s .status).getLsbD 2 = false ∧
    (Reg.read s .status).getLsbD 3 = false ∧ (Reg.read s .callLen).toNat < 2 ^ 8 ∧ (Reg.read s .callB).toNat < 2 ^ 16 ∧
    (Reg.read s .locLen).toNat < 2 ^ 8 ∧ (Reg.read s .chrIn).toNat < 2 ^ 8 ∧ (Reg.read s .chrOut).toNat < 2 ^ 6 ∧
    (Reg.read s (.payload 12)).toNat < 2 ^ 16 ∧ (Reg.read s (.code 5)).toNat < 2 ^ 2 ∧ (Reg.read s (.ilv 5)).toNat < 2 ^ 2 ∧
    (Reg.read s (.sym 10)).toNat < 2 ^ 4 ∧ Reg.read s .unmapped = 0 ∧ ∀ r : Reg, Reg.read s r &&& ~~~r.mask = 0

/-- 20_memory.md R69, R66: a host read while BUSY = 0 returns the register's current value (in `rdata`, the model's own output
field, log 4) and has no other effect. -/
def Obligations.IdleReadReturnsCurrentValue : Prop :=
  ∀ (s : State) (off : Offset) (rest : List HostEvent),
    s.hostFault = false → s.status.busy = false → off.toNat % 4 = 0 → s.events = .read 32 off :: rest →
    step s = .next { s with rdata := some (Reg.read s (regAt off)), events := rest }

/-- 70_reset_and_hazards.md R245: a host read while BUSY = 1 returns {1, 0, 0} for STATUS, some value with its reserved bits 0 for
a register in the pending command's write set (a free value, log 5: nothing is said of it, and `draws` advances), and the
current value for every other register, under a reserved opcode for every register but STATUS. `writes` is the write set of
30_encoding.md R94, command by command; the value read is put in `rdata` (log 4). -/
def Obligations.BusyReadAnswers : Prop :=
  let writes : Instr → Reg → Prop := fun i r =>
    match i with
    | .encode => r = .csCode ∨ r = .lpCode ∨ ∃ w, r = .payload w ∨ r = .code w ∨ r = .ilv w ∨ r = .sym w
    | .srcCallsign => r = .csCode
    | .srcLocpwr => r = .lpCode
    | .pack => ∃ w, r = .payload w
    | .conv => ∃ w, r = .code w
    | .interleave => ∃ w, r = .ilv w
    | .assemble => ∃ w, r = .sym w
    | .chrAlnum => r = .chrOut
    | .chrAlpha => r = .chrOut
  ∀ (s : State) (off : Offset) (rest : List HostEvent) (op : Opcode),
    s.hostFault = false → s.status.busy = true → s.pend = some op → off.toNat % 4 = 0 → s.events = .read 32 off :: rest →
    (regAt off = .status → step s = .next { s with rdata := some 0x00000001, events := rest }) ∧
    (∀ i, decode (op.setWidth 32) = .ok i → writes i (regAt off) →
      ∃ x : Word, step s = .next { s with rdata := some x, draws := s.draws + 1, events := rest } ∧
        x &&& ~~~(regAt off).mask = 0 ∧ (regAt off = .chrOut → x.toNat < 2 ^ 6) ∧ (regAt off = .payload 12 → x.toNat < 2 ^ 16) ∧
        (regAt off = .code 5 ∨ regAt off = .ilv 5 → x.toNat < 2 ^ 2) ∧ (regAt off = .sym 10 → x.toNat < 2 ^ 4)) ∧
    (regAt off ≠ .status → (∀ i, decode (op.setWidth 32) = .ok i → ¬ writes i (regAt off)) →
      step s = .next { s with rdata := some (Reg.read s (regAt off)), events := rest })

/-- 20_memory.md R66, R73 and 60_exceptions.md R226: a register's value changes only at a host write, at the reset input, or at
the completion step of a pending command; no read changes one. -/
def Obligations.RegistersChangeOnlyByWriteResetOrCompletion : Prop :=
  ∀ s t : State, step s = .next t → (∃ r, Reg.read t r ≠ Reg.read s r) →
    (∃ bits off v rest, s.events = .write bits off v :: rest) ∨
    (∃ rest, s.events = .reset :: rest) ∨
    (s.pend ≠ none ∧ (s.events = [] ∨ ∃ rest, s.events = .coreTurn :: rest))

/-- 20_memory.md R60, R62: an access at base + off reaches offset off of the window, and an access at any other address is not
addressed to the block. The model's choices: the statement is for every base, not only the multiples of 0x100 that R60 allows, and
an access outside gives no event (log 7); the address of the access's first byte alone decides (log 10). -/
def Obligations.BusReachesTheWindowOnly : Prop :=
  ∀ base addr : Nat,
    (∀ off, off < 0x100 → addr = base + off → ∀ bits v, memRead base addr bits = some (.read bits (BitVec.ofNat 8 off)) ∧
      memWrite base addr bits v = some (.write bits (BitVec.ofNat 8 off) v)) ∧
    ((addr < base ∨ base + 0x100 ≤ addr) → ∀ bits v, memRead base addr bits = none ∧ memWrite base addr bits v = none)

/-- 10_state.md R23: the register map, offset by offset: which word of the window is which register and which words are unmapped;
the four byte offsets of a word are one register's (20_memory.md R63), and `Reg.offset` gives the offset back. -/
def Obligations.RegisterMapOffsets : Prop :=
  (regAt 0x00 = .cmd ∧ regAt 0x04 = .status ∧ regAt 0x08 = .callLen ∧ regAt 0x0C = .callA ∧ regAt 0x10 = .callB ∧
    regAt 0x14 = .locLen ∧ regAt 0x18 = .loc ∧ regAt 0x1C = .power ∧ regAt 0x20 = .csCode ∧ regAt 0x24 = .lpCode ∧
    regAt 0x28 = .chrIn ∧ regAt 0x2C = .chrOut) ∧
  (∀ (off : Offset) (w : Nat),
    (w ≤ 12 → off.toNat = 0x40 + 4 * w → regAt off = .payload w) ∧ (w ≤ 5 → off.toNat = 0x80 + 4 * w → regAt off = .code w) ∧
    (w ≤ 5 → off.toNat = 0xA0 + 4 * w → regAt off = .ilv w) ∧ (w ≤ 10 → off.toNat = 0xC0 + 4 * w → regAt off = .sym w)) ∧
  (∀ off off' : Offset, off.toNat / 4 = off'.toNat / 4 → regAt off = regAt off') ∧
  (∀ r : Reg, (match r with
      | .payload w => w ≤ 12
      | .code w => w ≤ 5
      | .ilv w => w ≤ 5
      | .sym w => w ≤ 10
      | .unmapped => False
      | _ => True) → regAt r.offset = r) ∧
  (∀ off : Offset, regAt off = .unmapped ↔
    (0x030 ≤ off.toNat ∧ off.toNat < 0x040) ∨ (0x074 ≤ off.toNat ∧ off.toNat < 0x080) ∨
    (0x098 ≤ off.toNat ∧ off.toNat < 0x0A0) ∨ (0x0B8 ≤ off.toNat ∧ off.toNat < 0x0C0) ∨ 0x0EC ≤ off.toNat)

/-- 10_state.md R24, R27 to R39 and 20_memory.md R63, R64: the value the host reads in each register is that of its field, zeros
above it; where each character, payload cell, code bit and symbol stands in its register; byte k of a register is bits
[8k+7:8k]. (STATUS: StatusFieldsRead.) -/
def Obligations.CellsStandInTheirRegisters : Prop :=
  ∀ s : State,
    ((Reg.read s .cmd).toNat = s.cmdOp.toNat ∧ (Reg.read s .callLen).toNat = s.callLen.toNat ∧
      (Reg.read s .callA).toNat = s.callA.toNat ∧ (Reg.read s .callB).toNat = s.callB.toNat ∧
      (Reg.read s .locLen).toNat = s.locLen.toNat ∧ (Reg.read s .loc).toNat = s.loc.toNat ∧
      (Reg.read s .power).toNat = s.power.toNat ∧ (Reg.read s .csCode).toNat = s.csCode.toNat ∧
      (Reg.read s .lpCode).toNat = s.lpCode.toNat ∧ (Reg.read s .chrIn).toNat = s.chrIn.toNat ∧
      (Reg.read s .chrOut).toNat = s.chrOut.toNat) ∧
    (∀ (a : Offset) (k : Nat), a.toNat % 4 = k → windowByte s a = (Reg.read s (regAt a)).extractLsb' (8 * k) 8) ∧
    (∀ k < 4, callChar s k = (Reg.read s .callA).extractLsb' (8 * k) 8 ∧ locChar s k = (Reg.read s .loc).extractLsb' (8 * k) 8) ∧
    (∀ k < 2, callChar s (4 + k) = (Reg.read s .callB).extractLsb' (8 * k) 8) ∧
    (∀ w k, k < 4 → payloadCell s.payload (4 * w + k) = (Reg.read s (.payload w)).extractLsb' (8 * k) 8) ∧
    (∀ w k, k < 32 → s.code.getLsbD (32 * w + k) = (Reg.read s (.code w)).getLsbD k) ∧
    (∀ w k, k < 32 → s.ilv.getLsbD (32 * w + k) = (Reg.read s (.ilv w)).getLsbD k) ∧
    (∀ w k, k < 16 → symCell s.sym (16 * w + k) = (Reg.read s (.sym w)).extractLsb' (2 * k) 2)

/-- 10_state.md R25, R26: what the host reads in STATUS. -/
def Obligations.StatusFieldsRead : Prop :=
  ∀ s : State,
    (Reg.read s .status).getLsbD 0 = s.status.busy ∧ (Reg.read s .status).getLsbD 1 = s.status.done ∧
    (Reg.read s .status).extractLsb' 4 4 = (match s.status.err with
      | .none => 0x0
      | .convBitSet => 0x1
      | .callsign => 0x2
      | .locator => 0x3
      | .power => 0x4
      | .illegal => 0xF)

/-! ### Reset and the invariant -/

/-- 70_reset_and_hazards.md R240: at power-on and while reset is asserted every host-visible register is 0x00000000, PEND = none
and SR = 0; a pending command is abandoned; reset does not clear HOSTFAULT (which starts at 0, 10_state.md R43). -/
def Obligations.ResetLeavesEveryRegisterZero : Prop :=
  (∀ r : Reg, Reg.read State.reset r = 0) ∧ State.reset.pend = none ∧ State.reset.sr = 0 ∧ State.reset.hostFault = false ∧
  (∀ (s : State) (rest : List HostEvent), s.events = .reset :: rest →
    ∃ t, step s = .next t ∧ (∀ r : Reg, Reg.read t r = 0) ∧ t.status = ⟨false, false, .none⟩ ∧ t.pend = none ∧ t.sr = 0 ∧
      t.hostFault = s.hostFault ∧ t.events = rest)

/-- The invariant holds at reset. -/
def Obligations.InvHoldsAtReset : Prop := State.reset.Inv

/-- The invariant is kept by every step: BUSY exactly when a command is pending (10_state.md R41), BUSY and DONE never together
and ERR = 0 unless DONE (R25), PEND the opcode in CMD (R24), CHR_OUT at most 36 (R35), the sync vector in bit 0 of every symbol
or SYM never written (R39; 44_frame_assembler.md R191), SR holding at most u[49] (42_conv_encoder.md R168; log 3). -/
def Obligations.InvKeptByEveryStep : Prop := ∀ s t : State, s.Inv → step s = .next t → t.Inv

/-! ### Every command -/

/-- 70_reset_and_hazards.md R249: the completion step of every command, in every state, ends in BUSY = 0, DONE = 1, an ERR that is
not IllegalCommand, and PEND = none. -/
def Obligations.EveryCommandCompletes : Prop :=
  ∀ (i : Instr) (s : State), ∃ t e, exec i s = .next t ∧ t.status = ⟨false, true, e⟩ ∧ e ≠ .illegal ∧ t.pend = none

/-- 60_exceptions.md R218: a command that ends in an error, IllegalCommand included, changes STATUS and PEND and nothing else. -/
def Obligations.ErrorChangesOnlyStatusAndPend : Prop :=
  (∀ (i : Instr) (s t : State), exec i s = .next t → t.status.err ≠ .none →
    t = { s with status := ⟨false, true, t.status.err⟩, pend := none }) ∧
  (∀ (op : Opcode) (s t : State), completionStep op s = .next t → t.status.err ≠ .none →
    t = { s with status := ⟨false, true, t.status.err⟩, pend := none })

/-- 30_encoding.md R94, the frame of all nine commands: when a command gives a next state, every register but STATUS outside its
write set reads as before, every byte of the window there too, HOSTFAULT and the model's own fields are unchanged, and SR
changes only in CONV and ENCODE. -/
def Obligations.CommandFrame : Prop :=
  ∀ (i : Instr) (s t : State), exec i s = .next t →
    (∀ r : Reg, r ≠ .status →
      (match i with
        | .encode => r ≠ .csCode ∧ r ≠ .lpCode ∧ ∀ w, r ≠ .payload w ∧ r ≠ .code w ∧ r ≠ .ilv w ∧ r ≠ .sym w
        | .srcCallsign => r ≠ .csCode
        | .srcLocpwr => r ≠ .lpCode
        | .pack => ∀ w, r ≠ .payload w
        | .conv => ∀ w, r ≠ .code w
        | .interleave => ∀ w, r ≠ .ilv w
        | .assemble => ∀ w, r ≠ .sym w
        | .chrAlnum => r ≠ .chrOut
        | .chrAlpha => r ≠ .chrOut) →
      Reg.read t r = Reg.read s r ∧ ∀ a, regAt a = r → windowByte t a = windowByte s a) ∧
    t.hostFault = s.hostFault ∧ t.events = s.events ∧ t.rdata = s.rdata ∧ t.draws = s.draws ∧
    (i ≠ .conv → i ≠ .encode → t.sr = s.sr)

/-- 45_encode_top.md R203 for the eight stage commands of 60_exceptions.md R225: status and result of each are functions of its
operands alone (30_encoding.md R94): of CALL only the first CALL_LEN characters, of LOC only what LOC_LEN = 4 makes it read; CONV
does not see SR. -/
def Obligations.StageCommandsDependOnlyOnOperands : Prop :=
  ∀ s s' : State,
    (s.callLen = s'.callLen → (∀ k, k < s.callLen.toNat → k < 6 → callChar s k = callChar s' k) →
      ∃ t t', exec .srcCallsign s = .next t ∧ exec .srcCallsign s' = .next t' ∧ t.status = t'.status ∧
        (t.status.err = .none → t.csCode = t'.csCode)) ∧
    (s.locLen = s'.locLen → (s.locLen.toNat = 4 → ∀ k < 4, locChar s k = locChar s' k) → s.power = s'.power →
      ∃ t t', exec .srcLocpwr s = .next t ∧ exec .srcLocpwr s' = .next t' ∧ t.status = t'.status ∧
        (t.status.err = .none → t.lpCode = t'.lpCode)) ∧
    (s.csCode = s'.csCode → s.lpCode = s'.lpCode →
      ∃ t t', exec .pack s = .next t ∧ exec .pack s' = .next t' ∧ t.status = t'.status ∧ t.payload = t'.payload) ∧
    (s.payload = s'.payload →
      ∃ t t', exec .conv s = .next t ∧ exec .conv s' = .next t' ∧ t.status = t'.status ∧
        (t.status.err = .none → t.code = t'.code)) ∧
    (s.code = s'.code →
      ∃ t t', exec .interleave s = .next t ∧ exec .interleave s' = .next t' ∧ t.status = t'.status ∧ t.ilv = t'.ilv) ∧
    (s.ilv = s'.ilv →
      ∃ t t', exec .assemble s = .next t ∧ exec .assemble s' = .next t' ∧ t.status = t'.status ∧ t.sym = t'.sym) ∧
    (s.chrIn = s'.chrIn →
      (∃ t t', exec .chrAlnum s = .next t ∧ exec .chrAlnum s' = .next t' ∧ t.status = t'.status ∧ t.chrOut = t'.chrOut) ∧
      (∃ t t', exec .chrAlpha s = .next t ∧ exec .chrAlpha s' = .next t' ∧ t.status = t'.status ∧ t.chrOut = t'.chrOut))

/-- 70_reset_and_hazards.md R248: a pending command always completes: in a run of admitted reads, resets and core turns only, from
a state with a pending command and no host fault, at most one step more than there are events reaches a state with PEND = none.
If no event is a reset, that state is the command's completion, DONE = 1; a reset abandons the command (R240). That the core takes
its turn when no event is left is the model's choice (log 2). -/
def Obligations.PendingCommandAlwaysCompletes : Prop :=
  ∀ s : State, s.hostFault = false → s.pend ≠ none → (∀ e ∈ s.events, e.harmless = true) →
    ∃ k ≤ s.events.length + 1, ∃ t, core.run k s = .next t ∧ t.pend = none ∧ t.status.busy = false ∧ t.hostFault = false ∧
      (.reset ∉ s.events → t.status.done = true)

/-! ### Character encoder -/

/-- 40_char_encoder.md R112, R114: CHR_ALNUM, opcode 0x08, maps digits to 0..9, letters to 10..35, space to 36 and any other
code, lower case included, to 0; the host reads that value in CHR_OUT; STATUS and PEND as every success, nothing else changes. -/
def Obligations.ChrAlnumResult : Prop :=
  decode 0x08 = .ok .chrAlnum ∧ ∀ (s : State) (v : Nat),
    ((0x30 ≤ s.chrIn.toNat ∧ s.chrIn.toNat ≤ 0x39 ∧ v + 0x30 = s.chrIn.toNat) ∨
      (0x41 ≤ s.chrIn.toNat ∧ s.chrIn.toNat ≤ 0x5A ∧ v + 0x41 = s.chrIn.toNat + 10) ∨
      (s.chrIn.toNat = 0x20 ∧ v = 36) ∨
      (s.chrIn.toNat ≠ 0x20 ∧ (s.chrIn.toNat < 0x30 ∨ 0x39 < s.chrIn.toNat) ∧
        (s.chrIn.toNat < 0x41 ∨ 0x5A < s.chrIn.toNat) ∧ v = 0)) →
    ∃ t : State, exec .chrAlnum s = .next t ∧
      t = { s with chrOut := BitVec.ofNat 6 v, status := ⟨false, true, .none⟩, pend := none } ∧
      t.chrOut.toNat = v ∧ (Reg.read t .chrOut).toNat = v

/-- 40_char_encoder.md R113, R115: CHR_ALPHA, opcode 0x09, maps letters to 0..25, space to 26 and any other code, digits
included, to 0; the host reads that value in CHR_OUT; STATUS and PEND as every success, nothing else changes. -/
def Obligations.ChrAlphaResult : Prop :=
  decode 0x09 = .ok .chrAlpha ∧ ∀ (s : State) (v : Nat),
    ((0x41 ≤ s.chrIn.toNat ∧ s.chrIn.toNat ≤ 0x5A ∧ v + 0x41 = s.chrIn.toNat) ∨
      (s.chrIn.toNat = 0x20 ∧ v = 26) ∨
      (s.chrIn.toNat ≠ 0x20 ∧ (s.chrIn.toNat < 0x41 ∨ 0x5A < s.chrIn.toNat) ∧ v = 0)) →
    ∃ t : State, exec .chrAlpha s = .next t ∧
      t = { s with chrOut := BitVec.ofNat 6 v, status := ⟨false, true, .none⟩, pend := none } ∧
      t.chrOut.toNat = v ∧ (Reg.read t .chrOut).toNat = v

/-! ### Callsign -/

/-- 41_source_frame.md R120 to R127, R136: SRC_CALLSIGN on a callsign the rules accept. `t` is the folded text padded with spaces,
`b` the buffer after realignment; the prefix is (space, letter or digit), letter, digit; the suffix is m letters followed by
spaces. The result is the mixed-radix code, and only CS_CODE, STATUS and PEND change. -/
def Obligations.SrcCallsignEncodesValidCallsign : Prop :=
  ∀ (s : State) (t b : Nat → Byte) (m : Nat),
    3 ≤ s.callLen.toNat → s.callLen.toNat ≤ 6 →
    (∀ k < 6, t k = if k < s.callLen.toNat then upper (callChar s k) else 0x20) →
    (isDigit (t 2) = true → ∀ k < 6, b k = t k) →
    (isDigit (t 2) = false → b 0 = 0x20 ∧ ∀ k < 5, b (k + 1) = t k) →
    (isSpace (b 0) = true ∨ isLetter (b 0) = true ∨ isDigit (b 0) = true) → isLetter (b 1) = true → isDigit (b 2) = true →
    (∀ k < 3, if k < m then isLetter (b (3 + k)) = true else isSpace (b (3 + k)) = true) →
    exec .srcCallsign s = .next { s with
      csCode := BitVec.ofNat 32 (((((encodeAlnum (b 0) * 36 + encodeAlnum (b 1)) * 10 + encodeAlnum (b 2)) * 27 +
        encodeAlpha (b 3)) * 27 + encodeAlpha (b 4)) * 27 + encodeAlpha (b 5)),
      status := ⟨false, true, .none⟩, pend := none }

/-- 60_exceptions.md R211: SRC_CALLSIGN, and ENCODE whatever the locator and the power, end in CallsignEncodeError when the length
is not 3 to 6 (before any character is read), or the realigned buffer has a wrong prefix, or its last three characters are not
letters followed by spaces only. -/
def Obligations.InvalidCallsignIsRejected : Prop :=
  ∀ (s : State) (t b : Nat → Byte),
    (∀ k < 6, t k = if k < s.callLen.toNat then upper (callChar s k) else 0x20) →
    (isDigit (t 2) = true → ∀ k < 6, b k = t k) →
    (isDigit (t 2) = false → b 0 = 0x20 ∧ ∀ k < 5, b (k + 1) = t k) →
    (s.callLen.toNat < 3 ∨ 6 < s.callLen.toNat ∨
      ¬((isSpace (b 0) = true ∨ isLetter (b 0) = true ∨ isDigit (b 0) = true) ∧ isLetter (b 1) = true ∧ isDigit (b 2) = true) ∨
      ¬(∃ m, ∀ k < 3, if k < m then isLetter (b (3 + k)) = true else isSpace (b (3 + k)) = true)) →
    exec .srcCallsign s = .next { s with status := ⟨false, true, .callsign⟩, pend := none } ∧
    exec .encode s = .next { s with status := ⟨false, true, .callsign⟩, pend := none }

/-- 41_source_frame.md R121: a length below 3 or above 6 gives CallsignEncodeError, whatever the characters are. -/
def Obligations.CallsignLengthIsChecked : Prop :=
  ∀ s : State, (s.callLen.toNat < 3 ∨ 6 < s.callLen.toNat) →
    exec .srcCallsign s = .next { s with status := ⟨false, true, .callsign⟩, pend := none } ∧
    exec .encode s = .next { s with status := ⟨false, true, .callsign⟩, pend := none }

/-- 41_source_frame.md R126: a callsign code SRC_CALLSIGN produces is at most 262177559, below 2^28, and some callsign
reaches it. -/
def Obligations.CallsignCodeFits28Bits : Prop :=
  (∀ s t : State, exec .srcCallsign s = .next t → t.status.err = .none →
    t.csCode.toNat ≤ 262177559 ∧ t.csCode.toNat < 2 ^ 28) ∧
  (∃ s t : State, exec .srcCallsign s = .next t ∧ t.status.err = .none ∧ t.csCode.toNat = 262177559)

/-- 41_source_frame.md R120 and 40_char_encoder.md R111: the fold takes the codes 0x61 to 0x7A down by 0x20 and leaves every other
code alone, and a callsign encodes as the text with its lower-case codes taken down by 0x20 does. -/
def Obligations.CallsignCaseIsFolded : Prop :=
  (∀ c : Byte, (upper c).toNat = if 0x61 ≤ c.toNat ∧ c.toNat ≤ 0x7A then c.toNat - 0x20 else c.toNat) ∧
  (∀ s s' : State, s'.callLen = s.callLen →
    (∀ k < 6, (callChar s' k).toNat =
      if 0x61 ≤ (callChar s k).toNat ∧ (callChar s k).toNat ≤ 0x7A then (callChar s k).toNat - 0x20 else (callChar s k).toNat) →
    ∃ t t', exec .srcCallsign s = .next t ∧ exec .srcCallsign s' = .next t' ∧ t.status = t'.status ∧
      (t.status.err = .none → t.csCode = t'.csCode))

/-- 41_source_frame.md R123: when the third character of a 6-character callsign is not a digit, the sixth is lost without an
error: SRC_CALLSIGN ends as it does on the first five. -/
def Obligations.SixthCharacterIsDropped : Prop :=
  ∀ s : State, s.callLen.toNat = 6 → isDigit (upper (callChar s 2)) = false →
    ∃ t t', exec .srcCallsign s = .next t ∧ exec .srcCallsign { s with callLen := 5 } = .next t' ∧ t.status = t'.status ∧
      (t.status.err = .none → t.csCode = t'.csCode)

/-! ### Locator and power -/

/-- 41_source_frame.md R128 to R134, R137: SRC_LOCPWR on a locator [A-R][A-R][0-9][0-9] (after folding) and a power up to 60. The
result is (179 - 10*enc0 - enc2)*180 + 10*enc1 + enc3, times 128, plus 64, plus the power. -/
def Obligations.SrcLocpwrEncodesValidOperands : Prop :=
  ∀ (s : State) (l : Nat → Byte),
    s.locLen.toNat = 4 → (∀ k < 4, l k = upper (locChar s k)) →
    (0x41 ≤ (l 0).toNat ∧ (l 0).toNat ≤ 0x52) → (0x41 ≤ (l 1).toNat ∧ (l 1).toNat ≤ 0x52) →
    (0x30 ≤ (l 2).toNat ∧ (l 2).toNat ≤ 0x39) → (0x30 ≤ (l 3).toNat ∧ (l 3).toNat ≤ 0x39) → s.power.toNat ≤ 60 →
    ∃ t : State, exec .srcLocpwr s = .next t ∧
      t = { s with lpCode := t.lpCode, status := ⟨false, true, .none⟩, pend := none } ∧
      (t.lpCode.toNat : Int) = ((179 - 10 * (((l 0).toNat : Int) - 0x41) - (((l 2).toNat : Int) - 0x30)) * 180 +
        10 * (((l 1).toNat : Int) - 0x41) + (((l 3).toNat : Int) - 0x30)) * 128 + 64 + (s.power.toNat : Int)

/-- 60_exceptions.md R212, R213: a locator of the wrong length or with a wrong character gives LocatorEncodeError whatever the
power; with a valid locator, a power above 60 gives PowerEncodeError. SRC_LOCPWR raises both, and ENCODE does where the callsign
is valid. Nothing but STATUS and PEND changes. -/
def Obligations.InvalidLocatorOrPowerIsRejected : Prop :=
  ∀ (s : State) (l : Nat → Byte), (∀ k < 4, l k = upper (locChar s k)) →
    (¬(s.locLen.toNat = 4 ∧ (0x41 ≤ (l 0).toNat ∧ (l 0).toNat ≤ 0x52) ∧ (0x41 ≤ (l 1).toNat ∧ (l 1).toNat ≤ 0x52) ∧
        (0x30 ≤ (l 2).toNat ∧ (l 2).toNat ≤ 0x39) ∧ (0x30 ≤ (l 3).toNat ∧ (l 3).toNat ≤ 0x39)) →
      exec .srcLocpwr s = .next { s with status := ⟨false, true, .locator⟩, pend := none } ∧
      ∀ cs, encodeCallsign s.callLen.toNat (callChar s) = .ok cs →
        exec .encode s = .next { s with status := ⟨false, true, .locator⟩, pend := none }) ∧
    ((s.locLen.toNat = 4 ∧ (0x41 ≤ (l 0).toNat ∧ (l 0).toNat ≤ 0x52) ∧ (0x41 ≤ (l 1).toNat ∧ (l 1).toNat ≤ 0x52) ∧
        (0x30 ≤ (l 2).toNat ∧ (l 2).toNat ≤ 0x39) ∧ (0x30 ≤ (l 3).toNat ∧ (l 3).toNat ≤ 0x39)) → 60 < s.power.toNat →
      exec .srcLocpwr s = .next { s with status := ⟨false, true, .power⟩, pend := none } ∧
      ∀ cs, encodeCallsign s.callLen.toNat (callChar s) = .ok cs →
        exec .encode s = .next { s with status := ⟨false, true, .power⟩, pend := none })

/-- 41_source_frame.md R133: a locator/power code lies in 64..4147196, so in 22 bits; bit 6 is always 1 and bits [5:0] are the
power. -/
def Obligations.LocatorPowerCodeBounds : Prop :=
  ∀ s t : State, exec .srcLocpwr s = .next t → t.status.err = .none →
    64 ≤ t.lpCode.toNat ∧ t.lpCode.toNat ≤ 4147196 ∧ t.lpCode.toNat < 2 ^ 22 ∧ t.lpCode.getLsbD 6 = true ∧
    t.lpCode.toNat % 64 = s.power.toNat

/-! ### Packing -/

/-- 41_source_frame.md R135, R138: PACK, opcode 0x04, writes 0x00 or 0x01 in cell i, by bit 49 - i of (CS_CODE << 22) | LP_CODE,
with no masking; only PAYLOAD, STATUS and PEND change. -/
def Obligations.PackWritesPayloadBits : Prop :=
  decode 0x04 = .ok .pack ∧ ∀ s : State, ∃ p : PayloadBuf,
    exec .pack s = .next { s with payload := p, status := ⟨false, true, .none⟩, pend := none } ∧
    ∀ i < 50, (payloadCell p i).toNat = (Nat.testBit (s.csCode.toNat * 2 ^ 22 ||| s.lpCode.toNat) (49 - i)).toNat

/-- 41_source_frame.md R135: when CS_CODE < 2^28 and LP_CODE < 2^22 the payload is their 50-bit concatenation, most significant
bit first. -/
def Obligations.PackConcatenatesInRangeCodes : Prop :=
  ∀ s t : State, s.csCode.toNat < 2 ^ 28 → s.lpCode.toNat < 2 ^ 22 → exec .pack s = .next t →
    (∀ i < 28, (payloadCell t.payload i).toNat = (s.csCode.getLsbD (27 - i)).toNat) ∧
    (∀ i < 22, (payloadCell t.payload (28 + i)).toNat = (s.lpCode.getLsbD (21 - i)).toNat)

/-! ### Convolution -/

/-- 42_conv_encoder.md R163 to R167, R169: on a binary payload CONV writes code[2t] = parity(SR & POLY1) and code[2t+1] =
parity(SR & POLY2), where SR after step t holds u[t-j] in bit j; only CODE, STATUS, PEND and SR change (SR: log 3). -/
def Obligations.ConvWritesCodeBits : Prop :=
  ∀ s : State, (∀ i < 50, payloadCell s.payload i = 0 ∨ payloadCell s.payload i = 1) →
    ∃ (c : BitBuf) (r : Word),
      exec .conv s = .next { s with code := c, sr := r, status := ⟨false, true, .none⟩, pend := none } ∧
      ∀ t < 81, ∀ w : Word,
        (∀ j < 32, w.getLsbD j = (decide (j ≤ t) && decide (t - j < 50) && decide (payloadCell s.payload (t - j) = 1))) →
        c.getLsbD (2 * t) = parity (w &&& 0xF2D05351) ∧ c.getLsbD (2 * t + 1) = parity (w &&& 0xE4613C47)

/-- 60_exceptions.md R214 and 42_conv_encoder.md R162: CONV ends in ConvolutionBitSetError, with no partial output, when any
payload cell is neither 0 nor 1. -/
def Obligations.ConvRejectsNonBinaryPayload : Prop :=
  ∀ (s : State) (i : Nat), i < 50 → payloadCell s.payload i ≠ 0 → payloadCell s.payload i ≠ 1 →
    exec .conv s = .next { s with status := ⟨false, true, .convBitSet⟩, pend := none }

/-- 42_conv_encoder.md R161: parity is 1 exactly when the word has an odd number of 1 bits. -/
def Obligations.ParityCountsOneBits : Prop :=
  ∀ x : Word, parity x = decide (((List.range 32).countP fun k => x.getLsbD k) % 2 = 1)

/-- 42_conv_encoder.md R168: the code is linear over GF(2): the code of a XOR of binary payloads is the XOR of their codes. -/
def Obligations.ConvIsLinear : Prop :=
  ∀ s1 s2 s3 : State,
    (∀ i < 50, payloadCell s1.payload i = 0 ∨ payloadCell s1.payload i = 1) →
    (∀ i < 50, payloadCell s2.payload i = 0 ∨ payloadCell s2.payload i = 1) →
    s3.payload = s1.payload ^^^ s2.payload →
    ∃ t1 t2 t3, exec .conv s1 = .next t1 ∧ exec .conv s2 = .next t2 ∧ exec .conv s3 = .next t3 ∧
      t1.status.err = .none ∧ t2.status.err = .none ∧ t3.status.err = .none ∧ t3.code = t1.code ^^^ t2.code

/-- 42_conv_encoder.md R168: a payload with only u[n] = 1 gives POLY1 and POLY2, bit by bit, at the even and odd indices from 2n
on, and zero elsewhere. -/
def Obligations.ConvImpulseShowsThePolynomials : Prop :=
  ∀ (s : State) (n : Nat), n < 50 → (∀ i < 50, payloadCell s.payload i = if i = n then 1 else 0) →
    ∃ t, exec .conv s = .next t ∧ t.status.err = .none ∧
      (∀ k < 32, t.code.getLsbD (2 * (n + k)) = (0xF2D05351 : Word).getLsbD k ∧
        t.code.getLsbD (2 * (n + k) + 1) = (0xE4613C47 : Word).getLsbD k) ∧
      (∀ j < 162, (j < 2 * n ∨ 2 * n + 64 ≤ j) → t.code.getLsbD j = false)

/-! ### Interleaving -/

/-- 43_interleaver.md R181: PERM is a bijection of 0..161 that lists the values below 162 whose bit reversals are in ascending
order; rev8 is the 8-bit reversal (R180). -/
def Obligations.PermIsTheBitReversalOrder : Prop :=
  (∀ b : Byte, ∀ k < 8, (rev8 b).getLsbD k = b.getLsbD (7 - k)) ∧
  permList.length = 162 ∧ (∀ p < 162, perm p < 162) ∧ (∀ j < 162, ∃ p < 162, perm p = j) ∧
  (∀ p q, p < q → q < 162 → (rev8 (BitVec.ofNat 8 (perm p))).toNat < (rev8 (BitVec.ofNat 8 (perm q))).toNat)

/-- 43_interleaver.md R183, R185: INTERLEAVE, opcode 0x06, writes ilv[PERM[p]] = code[p] for every p; only ILV, STATUS and PEND
change. -/
def Obligations.InterleavePermutesCode : Prop :=
  decode 0x06 = .ok .interleave ∧ ∀ s : State, ∃ y : BitBuf,
    exec .interleave s = .next { s with ilv := y, status := ⟨false, true, .none⟩, pend := none } ∧
    ∀ p < 162, y.getLsbD (perm p) = s.code.getLsbD p

/-- 43_interleaver.md R184: INTERLEAVE keeps the number of 1 bits, and a CODE with only code[p] = 1 gives an ILV with only
ilv[PERM[p]] = 1. -/
def Obligations.InterleaveKeepsOneBits : Prop :=
  ∀ s t : State, exec .interleave s = .next t →
    ((List.range 162).countP fun j => t.ilv.getLsbD j) = ((List.range 162).countP fun p => s.code.getLsbD p) ∧
    (∀ p < 162, (∀ q < 162, s.code.getLsbD q = decide (q = p)) → ∀ j < 162, t.ilv.getLsbD j = decide (j = perm p))

/-! ### Assembling -/

/-- 44_frame_assembler.md R190, R191, R192: SYNC is the table of R190, row by row, and ASSEMBLE, opcode 0x07, writes sym[i] =
SYNC[i] + 2*ilv[i], in 0..3; only SYM, STATUS and PEND change. -/
def Obligations.AssembleMergesSync : Prop :=
  let sync : List Nat :=
    [1, 1, 0, 0, 0, 0, 0, 0, 1, 0] ++ [0, 0, 1, 1, 1, 0, 0, 0, 1, 0] ++ [0, 1, 0, 1, 1, 1, 1, 0, 0, 0] ++
    [0, 0, 0, 0, 1, 0, 0, 1, 0, 1] ++ [0, 0, 0, 0, 0, 0, 1, 0, 1, 1] ++ [0, 0, 1, 1, 0, 1, 0, 0, 0, 1] ++
    [1, 0, 1, 0, 0, 0, 0, 1, 1, 0] ++ [1, 0, 1, 0, 1, 0, 1, 0, 0, 1] ++ [0, 0, 1, 0, 1, 1, 0, 0, 0, 1] ++
    [1, 0, 1, 0, 1, 0, 0, 0, 1, 0] ++ [0, 0, 0, 0, 1, 0, 0, 1, 0, 0] ++ [1, 1, 1, 0, 1, 1, 0, 0, 1, 1] ++
    [0, 1, 0, 0, 0, 1, 1, 1, 0, 0] ++ [0, 0, 0, 1, 0, 1, 0, 0, 1, 1] ++ [0, 0, 0, 0, 0, 0, 0, 1, 1, 0] ++
    [1, 0, 1, 1, 0, 0, 0, 1, 1, 0] ++ [0, 0]
  decode 0x07 = .ok .assemble ∧ sync.length = 162 ∧ sync.sum = 63 ∧ (∀ i < 162, syncAt i = sync.getD i 0) ∧
  ∀ s : State, ∃ y : SymBuf,
    exec .assemble s = .next { s with sym := y, status := ⟨false, true, .none⟩, pend := none } ∧
    ∀ i < 162, (symCell y i).toNat = sync.getD i 0 + 2 * (s.ilv.getLsbD i).toNat ∧ (symCell y i).toNat ≤ 3

/-! ### Encoding a message -/

/-- 45_encode_top.md R200, R201: ENCODE of a valid callsign, locator and power writes the two codes, the payload of their packing,
its code bits, their interleaving and the symbols; nothing else but STATUS, PEND and SR (log 3) changes. -/
def Obligations.EncodeWritesEveryStage : Prop :=
  ∀ (s : State) (cs lp : Nat),
    encodeCallsign s.callLen.toNat (callChar s) = .ok cs →
    encodeLocatorPower s.locLen.toNat (locChar s) s.power.toNat = .ok lp →
    ∃ t : State, exec .encode s = .next t ∧
      t = { s with csCode := t.csCode, lpCode := t.lpCode, payload := t.payload, code := t.code, ilv := t.ilv, sym := t.sym,
                   sr := t.sr, status := ⟨false, true, .none⟩, pend := none } ∧
      t.csCode.toNat = cs ∧ t.lpCode.toNat = lp ∧
      (∀ i < 50, (payloadCell t.payload i).toNat = (Nat.testBit (cs * 2 ^ 22 ||| lp) (49 - i)).toNat) ∧
      (∀ n < 81, ∀ w : Word,
        (∀ j < 32, w.getLsbD j = (decide (j ≤ n) && decide (n - j < 50) && decide (payloadCell t.payload (n - j) = 1))) →
        t.code.getLsbD (2 * n) = parity (w &&& 0xF2D05351) ∧ t.code.getLsbD (2 * n + 1) = parity (w &&& 0xE4613C47)) ∧
      (∀ p < 162, t.ilv.getLsbD (perm p) = t.code.getLsbD p) ∧
      (∀ i < 162, (symCell t.sym i).toNat = syncAt i + 2 * (t.ilv.getLsbD i).toNat)

/-- 45_encode_top.md R200, R201: ENCODE is the six stage commands one after the other: where SRC_CALLSIGN and SRC_LOCPWR succeed,
running SRC_CALLSIGN, SRC_LOCPWR, PACK, CONV, INTERLEAVE and ASSEMBLE ends in exactly the state ENCODE ends in. That the two agree
on SR too rests on the model's choice of log 3: the spec says nothing of SR after a command. -/
def Obligations.EncodeIsTheStagePipeline : Prop :=
  ∀ s t1 t2 : State, exec .srcCallsign s = .next t1 → t1.status.err = .none →
    exec .srcLocpwr t1 = .next t2 → t2.status.err = .none →
    ∃ t3 t4 t5 t6, exec .pack t2 = .next t3 ∧ exec .conv t3 = .next t4 ∧ exec .interleave t4 = .next t5 ∧
      exec .assemble t5 = .next t6 ∧ exec .encode s = .next t6

/-- 60_exceptions.md R217, within ENCODE: a bad callsign gives 0x2 whatever the locator and the power; with a good callsign ENCODE
reports what SRC_LOCPWR would report of the locator and the power. -/
def Obligations.EncodeReportsTheFirstError : Prop :=
  ∀ s : State,
    (∀ t, exec .srcCallsign s = .next t → t.status.err ≠ .none →
      exec .encode s = .next { s with status := ⟨false, true, .callsign⟩, pend := none }) ∧
    (∀ t t', exec .srcCallsign s = .next t → t.status.err = .none → exec .srcLocpwr s = .next t' → t'.status.err ≠ .none →
      exec .encode s = .next { s with status := ⟨false, true, t'.status.err⟩, pend := none } ∧
      (t'.status.err = .locator ∨ t'.status.err = .power))

/-- 45_encode_top.md R202: inside ENCODE ConvolutionBitSetError is unreachable, whatever PAYLOAD holds; it is reachable through
CONV. -/
def Obligations.EncodeNeverReportsConvError : Prop :=
  (∀ s t : State, exec .encode s = .next t → t.status.err ≠ .convBitSet) ∧
  (∃ s t : State, exec .conv s = .next t ∧ t.status.err = .convBitSet)

/-- 45_encode_top.md R203: ENCODE's status and results depend only on CALL_LEN, the first CALL_LEN characters, LOC_LEN, the
locator characters when LOC_LEN = 4, and POWER: two states that agree on those end alike, whatever else they hold. -/
def Obligations.EncodeDependsOnlyOnTheMessage : Prop :=
  ∀ s s' : State, s.callLen = s'.callLen → (∀ k, k < s.callLen.toNat → k < 6 → callChar s k = callChar s' k) →
    s.locLen = s'.locLen → (s.locLen.toNat = 4 → ∀ k < 4, locChar s k = locChar s' k) → s.power = s'.power →
    ∃ t t', exec .encode s = .next t ∧ exec .encode s' = .next t' ∧ t.status = t'.status ∧
      (t.status.err = .none → t.csCode = t'.csCode ∧ t.lpCode = t'.lpCode ∧ t.payload = t'.payload ∧ t.code = t'.code ∧
        t.ilv = t'.ilv ∧ t.sym = t'.sym)

/-! ### Case folding and the character classes -/

/-- 41_source_frame.md R128 and 40_char_encoder.md R111: a locator encodes as the text with its lower-case codes 0x61 to 0x7A taken
down by 0x20 does, and so does a whole message in ENCODE. -/
def Obligations.LocatorAndMessageCaseIsFolded : Prop :=
  ∀ s s' : State, s'.locLen = s.locLen → s'.power = s.power →
    (∀ k < 4, (locChar s' k).toNat =
      if 0x61 ≤ (locChar s k).toNat ∧ (locChar s k).toNat ≤ 0x7A then (locChar s k).toNat - 0x20 else (locChar s k).toNat) →
    (∃ t t', exec .srcLocpwr s = .next t ∧ exec .srcLocpwr s' = .next t' ∧ t.status = t'.status ∧
      (t.status.err = .none → t.lpCode = t'.lpCode)) ∧
    (s'.callLen = s.callLen →
      (∀ k < 6, (callChar s' k).toNat =
        if 0x61 ≤ (callChar s k).toNat ∧ (callChar s k).toNat ≤ 0x7A then (callChar s k).toNat - 0x20
        else (callChar s k).toNat) →
      ∃ t t', exec .encode s = .next t ∧ exec .encode s' = .next t' ∧ t.status = t'.status ∧
        (t.status.err = .none → t.csCode = t'.csCode ∧ t.lpCode = t'.lpCode ∧ t.payload = t'.payload ∧ t.code = t'.code ∧
          t.ilv = t'.ilv ∧ t.sym = t'.sym))

/-- 40_char_encoder.md R110: the codes of the classes digit, letter and space, which the statements on callsigns and locators
name; no code is in two of them. -/
def Obligations.CharacterClassesAreTheCodesOfR110 : Prop :=
  ∀ c : Byte,
    (isDigit c = true ↔ 0x30 ≤ c.toNat ∧ c.toNat ≤ 0x39) ∧ (isLetter c = true ↔ 0x41 ≤ c.toNat ∧ c.toNat ≤ 0x5A) ∧
    (isSpace c = true ↔ c.toNat = 0x20) ∧ ¬(isDigit c = true ∧ isLetter c = true) ∧ ¬(isSpace c = true ∧ isDigit c = true) ∧
    ¬(isSpace c = true ∧ isLetter c = true)
end

