-- ==== Sys2Proof/Laws/Buffers.lean ====
section
/-! SUPPORT. The packed buffers: bits, cells and words, and what writing one leaves of the others. -/

namespace Sys2Proof.Laws

open Sys2Proof.Machine

@[simp] theorem getLsbD_bitsOfFn (f : Nat → Bool) (n i : Nat) :
    (bitsOfFn f n).getLsbD i = (decide (i < n) && f i) := by
  induction n with
  | zero => simp [-BitVec.getLsbD_eq_getElem, bitsOfFn]
  | succ n ih =>
    simp only [bitsOfFn, BitVec.getLsbD_cons, ih]
    by_cases h : i = n
    · simp [-BitVec.getLsbD_eq_getElem, h]
    · have : (i < n + 1) ↔ (i < n) := by omega
      simp [-BitVec.getLsbD_eq_getElem, h, this]

theorem getLsbD_cellsOfFn (c n : Nat) (f : Nat → BitVec c) (j : Nat) :
    (cellsOfFn c n f).getLsbD j = (decide (j < n) && (f (j / c)).getLsbD (j % c)) := by
  simp [-BitVec.getLsbD_eq_getElem, cellsOfFn]

/-- Reading back a cell that lies inside the buffer. -/
theorem cellAt_cellsOfFn (c n : Nat) (f : Nat → BitVec c) (i : Nat) (h : c * i + c ≤ n) :
    cellAt c (cellsOfFn c n f) i = f i := by
  apply BitVec.eq_of_getLsbD_eq
  intro k hk
  have hc : 0 < c := by omega
  have hd : (c * i + k) / c = i := by
    rw [Nat.mul_add_div hc, Nat.div_eq_of_lt hk, Nat.add_zero]
  have hm : (c * i + k) % c = k := by
    rw [Nat.mul_add_mod, Nat.mod_eq_of_lt hk]
  have hlt : c * i + k < n := by omega
  simp [-BitVec.getLsbD_eq_getElem, cellAt, getLsbD_cellsOfFn, hk, hd, hm, hlt]

theorem getLsbD_cellAt (c : Nat) {n : Nat} (buf : BitVec n) (i k : Nat) :
    (cellAt c buf i).getLsbD k = (decide (k < c) && buf.getLsbD (c * i + k)) := by
  simp [-BitVec.getLsbD_eq_getElem, cellAt]

theorem getLsbD_wordAt {n : Nat} (buf : BitVec n) (w k : Nat) :
    (wordAt buf w).getLsbD k = (decide (k < 32) && buf.getLsbD (32 * w + k)) := by
  simp [-BitVec.getLsbD_eq_getElem, wordAt]

theorem getLsbD_setWordAt {n : Nat} (buf : BitVec n) (w : Nat) (v : Word) (j : Nat) :
    (setWordAt buf w v).getLsbD j =
      (decide (j < n) && if 32 * w ≤ j ∧ j < 32 * w + 32 then v.getLsbD (j - 32 * w) else buf.getLsbD j) := by
  unfold setWordAt
  simp only [BitVec.getLsbD_or, BitVec.getLsbD_and, BitVec.getLsbD_not, BitVec.getLsbD_shiftLeft,
    BitVec.getLsbD_setWidth, BitVec.getLsbD_allOnes]
  by_cases hn : j < n
  · have hn' : j - 32 * w < n := by omega
    by_cases hl : 32 * w ≤ j
    · by_cases hh : j < 32 * w + 32
      · have h1 : ¬ j < 32 * w := by omega
        have h2 : j - 32 * w < 32 := by omega
        simp [-BitVec.getLsbD_eq_getElem, hn, hn', hl, hh, h1, h2]
      · have h1 : ¬ j < 32 * w := by omega
        have h2 : ¬ j - 32 * w < 32 := by omega
        have h3 : v.getLsbD (j - 32 * w) = false := BitVec.getLsbD_of_ge _ _ (by omega)
        simp [-BitVec.getLsbD_eq_getElem, hn, hn', hl, hh, h1, h2, h3]
    · have h1 : j < 32 * w := by omega
      simp [-BitVec.getLsbD_eq_getElem, hn, hl, h1]
  · simp [-BitVec.getLsbD_eq_getElem, hn]

/-- A word written is read back, less the bits past the buffer's end. -/
theorem wordAt_setWordAt_same {n : Nat} (buf : BitVec n) (w : Nat) (v : Word) (k : Nat) (hk : k < 32) :
    (wordAt (setWordAt buf w v) w).getLsbD k = (decide (32 * w + k < n) && v.getLsbD k) := by
  have h : 32 * w ≤ 32 * w + k ∧ 32 * w + k < 32 * w + 32 := by omega
  simp [-BitVec.getLsbD_eq_getElem, getLsbD_wordAt, getLsbD_setWordAt, hk]

/-- Writing one word leaves every other. -/
theorem wordAt_setWordAt_other {n : Nat} (buf : BitVec n) (w w' : Nat) (v : Word) (h : w' ≠ w) :
    wordAt (setWordAt buf w v) w' = wordAt buf w' := by
  apply BitVec.eq_of_getLsbD_eq
  intro k hk
  have h' : ¬(32 * w ≤ 32 * w' + k ∧ 32 * w' + k < 32 * w + 32) := by omega
  simp only [getLsbD_wordAt, getLsbD_setWordAt, h', if_false]
  by_cases hn : 32 * w' + k < n
  · simp [-BitVec.getLsbD_eq_getElem, hn]
  · simp [-BitVec.getLsbD_eq_getElem, hn, BitVec.getLsbD_of_ge _ _ (Nat.not_lt.mp hn)]

end Sys2Proof.Laws
end

