-- ==== Sys2Proof/Laws/State.lean ====
section
/-! SUPPORT. One lemma per field for every named update of State, true by rfl, so that no proof unfolds a record update. -/

namespace Sys2Proof.Laws

open Sys2Proof.Machine

/-! ### `complete` -/

@[simp] theorem complete_cmdOp (s : State) (e : ErrCode) : (complete s e).cmdOp = s.cmdOp := rfl
@[simp] theorem complete_status (s : State) (e : ErrCode) : (complete s e).status = statusCompleted e := rfl
@[simp] theorem complete_callLen (s : State) (e : ErrCode) : (complete s e).callLen = s.callLen := rfl
@[simp] theorem complete_callA (s : State) (e : ErrCode) : (complete s e).callA = s.callA := rfl
@[simp] theorem complete_callB (s : State) (e : ErrCode) : (complete s e).callB = s.callB := rfl
@[simp] theorem complete_locLen (s : State) (e : ErrCode) : (complete s e).locLen = s.locLen := rfl
@[simp] theorem complete_loc (s : State) (e : ErrCode) : (complete s e).loc = s.loc := rfl
@[simp] theorem complete_power (s : State) (e : ErrCode) : (complete s e).power = s.power := rfl
@[simp] theorem complete_csCode (s : State) (e : ErrCode) : (complete s e).csCode = s.csCode := rfl
@[simp] theorem complete_lpCode (s : State) (e : ErrCode) : (complete s e).lpCode = s.lpCode := rfl
@[simp] theorem complete_chrIn (s : State) (e : ErrCode) : (complete s e).chrIn = s.chrIn := rfl
@[simp] theorem complete_chrOut (s : State) (e : ErrCode) : (complete s e).chrOut = s.chrOut := rfl
@[simp] theorem complete_payload (s : State) (e : ErrCode) : (complete s e).payload = s.payload := rfl
@[simp] theorem complete_code (s : State) (e : ErrCode) : (complete s e).code = s.code := rfl
@[simp] theorem complete_ilv (s : State) (e : ErrCode) : (complete s e).ilv = s.ilv := rfl
@[simp] theorem complete_sym (s : State) (e : ErrCode) : (complete s e).sym = s.sym := rfl
@[simp] theorem complete_sr (s : State) (e : ErrCode) : (complete s e).sr = s.sr := rfl
@[simp] theorem complete_pend (s : State) (e : ErrCode) : (complete s e).pend = none := rfl
@[simp] theorem complete_hostFault (s : State) (e : ErrCode) : (complete s e).hostFault = s.hostFault := rfl
@[simp] theorem complete_events (s : State) (e : ErrCode) : (complete s e).events = s.events := rfl
@[simp] theorem complete_rdata (s : State) (e : ErrCode) : (complete s e).rdata = s.rdata := rfl
@[simp] theorem complete_draws (s : State) (e : ErrCode) : (complete s e).draws = s.draws := rfl

/-! ### `acceptCommand` -/

@[simp] theorem acceptCommand_cmdOp (s : State) (v : Word) : (acceptCommand s v).cmdOp = opField v := rfl
@[simp] theorem acceptCommand_status (s : State) (v : Word) : (acceptCommand s v).status = statusAccepted := rfl
@[simp] theorem acceptCommand_callLen (s : State) (v : Word) : (acceptCommand s v).callLen = s.callLen := rfl
@[simp] theorem acceptCommand_callA (s : State) (v : Word) : (acceptCommand s v).callA = s.callA := rfl
@[simp] theorem acceptCommand_callB (s : State) (v : Word) : (acceptCommand s v).callB = s.callB := rfl
@[simp] theorem acceptCommand_locLen (s : State) (v : Word) : (acceptCommand s v).locLen = s.locLen := rfl
@[simp] theorem acceptCommand_loc (s : State) (v : Word) : (acceptCommand s v).loc = s.loc := rfl
@[simp] theorem acceptCommand_power (s : State) (v : Word) : (acceptCommand s v).power = s.power := rfl
@[simp] theorem acceptCommand_csCode (s : State) (v : Word) : (acceptCommand s v).csCode = s.csCode := rfl
@[simp] theorem acceptCommand_lpCode (s : State) (v : Word) : (acceptCommand s v).lpCode = s.lpCode := rfl
@[simp] theorem acceptCommand_chrIn (s : State) (v : Word) : (acceptCommand s v).chrIn = s.chrIn := rfl
@[simp] theorem acceptCommand_chrOut (s : State) (v : Word) : (acceptCommand s v).chrOut = s.chrOut := rfl
@[simp] theorem acceptCommand_payload (s : State) (v : Word) : (acceptCommand s v).payload = s.payload := rfl
@[simp] theorem acceptCommand_code (s : State) (v : Word) : (acceptCommand s v).code = s.code := rfl
@[simp] theorem acceptCommand_ilv (s : State) (v : Word) : (acceptCommand s v).ilv = s.ilv := rfl
@[simp] theorem acceptCommand_sym (s : State) (v : Word) : (acceptCommand s v).sym = s.sym := rfl
@[simp] theorem acceptCommand_sr (s : State) (v : Word) : (acceptCommand s v).sr = s.sr := rfl
@[simp] theorem acceptCommand_pend (s : State) (v : Word) : (acceptCommand s v).pend = some (opField v) := rfl
@[simp] theorem acceptCommand_hostFault (s : State) (v : Word) : (acceptCommand s v).hostFault = s.hostFault := rfl
@[simp] theorem acceptCommand_events (s : State) (v : Word) : (acceptCommand s v).events = s.events := rfl
@[simp] theorem acceptCommand_rdata (s : State) (v : Word) : (acceptCommand s v).rdata = s.rdata := rfl
@[simp] theorem acceptCommand_draws (s : State) (v : Word) : (acceptCommand s v).draws = s.draws := rfl

/-! ### `setHostFault` -/

@[simp] theorem setHostFault_cmdOp (s : State) : (setHostFault s).cmdOp = s.cmdOp := rfl
@[simp] theorem setHostFault_status (s : State) : (setHostFault s).status = s.status := rfl
@[simp] theorem setHostFault_callLen (s : State) : (setHostFault s).callLen = s.callLen := rfl
@[simp] theorem setHostFault_callA (s : State) : (setHostFault s).callA = s.callA := rfl
@[simp] theorem setHostFault_callB (s : State) : (setHostFault s).callB = s.callB := rfl
@[simp] theorem setHostFault_locLen (s : State) : (setHostFault s).locLen = s.locLen := rfl
@[simp] theorem setHostFault_loc (s : State) : (setHostFault s).loc = s.loc := rfl
@[simp] theorem setHostFault_power (s : State) : (setHostFault s).power = s.power := rfl
@[simp] theorem setHostFault_csCode (s : State) : (setHostFault s).csCode = s.csCode := rfl
@[simp] theorem setHostFault_lpCode (s : State) : (setHostFault s).lpCode = s.lpCode := rfl
@[simp] theorem setHostFault_chrIn (s : State) : (setHostFault s).chrIn = s.chrIn := rfl
@[simp] theorem setHostFault_chrOut (s : State) : (setHostFault s).chrOut = s.chrOut := rfl
@[simp] theorem setHostFault_payload (s : State) : (setHostFault s).payload = s.payload := rfl
@[simp] theorem setHostFault_code (s : State) : (setHostFault s).code = s.code := rfl
@[simp] theorem setHostFault_ilv (s : State) : (setHostFault s).ilv = s.ilv := rfl
@[simp] theorem setHostFault_sym (s : State) : (setHostFault s).sym = s.sym := rfl
@[simp] theorem setHostFault_sr (s : State) : (setHostFault s).sr = s.sr := rfl
@[simp] theorem setHostFault_pend (s : State) : (setHostFault s).pend = s.pend := rfl
@[simp] theorem setHostFault_hostFault (s : State) : (setHostFault s).hostFault = true := rfl
@[simp] theorem setHostFault_events (s : State) : (setHostFault s).events = s.events := rfl
@[simp] theorem setHostFault_rdata (s : State) : (setHostFault s).rdata = s.rdata := rfl
@[simp] theorem setHostFault_draws (s : State) : (setHostFault s).draws = s.draws := rfl

/-! ### `answerRead` -/

@[simp] theorem answerRead_cmdOp (s : State) (v : Word) : (answerRead s v).cmdOp = s.cmdOp := rfl
@[simp] theorem answerRead_status (s : State) (v : Word) : (answerRead s v).status = s.status := rfl
@[simp] theorem answerRead_callLen (s : State) (v : Word) : (answerRead s v).callLen = s.callLen := rfl
@[simp] theorem answerRead_callA (s : State) (v : Word) : (answerRead s v).callA = s.callA := rfl
@[simp] theorem answerRead_callB (s : State) (v : Word) : (answerRead s v).callB = s.callB := rfl
@[simp] theorem answerRead_locLen (s : State) (v : Word) : (answerRead s v).locLen = s.locLen := rfl
@[simp] theorem answerRead_loc (s : State) (v : Word) : (answerRead s v).loc = s.loc := rfl
@[simp] theorem answerRead_power (s : State) (v : Word) : (answerRead s v).power = s.power := rfl
@[simp] theorem answerRead_csCode (s : State) (v : Word) : (answerRead s v).csCode = s.csCode := rfl
@[simp] theorem answerRead_lpCode (s : State) (v : Word) : (answerRead s v).lpCode = s.lpCode := rfl
@[simp] theorem answerRead_chrIn (s : State) (v : Word) : (answerRead s v).chrIn = s.chrIn := rfl
@[simp] theorem answerRead_chrOut (s : State) (v : Word) : (answerRead s v).chrOut = s.chrOut := rfl
@[simp] theorem answerRead_payload (s : State) (v : Word) : (answerRead s v).payload = s.payload := rfl
@[simp] theorem answerRead_code (s : State) (v : Word) : (answerRead s v).code = s.code := rfl
@[simp] theorem answerRead_ilv (s : State) (v : Word) : (answerRead s v).ilv = s.ilv := rfl
@[simp] theorem answerRead_sym (s : State) (v : Word) : (answerRead s v).sym = s.sym := rfl
@[simp] theorem answerRead_sr (s : State) (v : Word) : (answerRead s v).sr = s.sr := rfl
@[simp] theorem answerRead_pend (s : State) (v : Word) : (answerRead s v).pend = s.pend := rfl
@[simp] theorem answerRead_hostFault (s : State) (v : Word) : (answerRead s v).hostFault = s.hostFault := rfl
@[simp] theorem answerRead_events (s : State) (v : Word) : (answerRead s v).events = s.events := rfl
@[simp] theorem answerRead_rdata (s : State) (v : Word) : (answerRead s v).rdata = some v := rfl
@[simp] theorem answerRead_draws (s : State) (v : Word) : (answerRead s v).draws = s.draws := rfl

/-! ### `drawRead` -/

@[simp] theorem drawRead_cmdOp (s : State) (r : Reg) : (drawRead s r).cmdOp = s.cmdOp := rfl
@[simp] theorem drawRead_status (s : State) (r : Reg) : (drawRead s r).status = s.status := rfl
@[simp] theorem drawRead_callLen (s : State) (r : Reg) : (drawRead s r).callLen = s.callLen := rfl
@[simp] theorem drawRead_callA (s : State) (r : Reg) : (drawRead s r).callA = s.callA := rfl
@[simp] theorem drawRead_callB (s : State) (r : Reg) : (drawRead s r).callB = s.callB := rfl
@[simp] theorem drawRead_locLen (s : State) (r : Reg) : (drawRead s r).locLen = s.locLen := rfl
@[simp] theorem drawRead_loc (s : State) (r : Reg) : (drawRead s r).loc = s.loc := rfl
@[simp] theorem drawRead_power (s : State) (r : Reg) : (drawRead s r).power = s.power := rfl
@[simp] theorem drawRead_csCode (s : State) (r : Reg) : (drawRead s r).csCode = s.csCode := rfl
@[simp] theorem drawRead_lpCode (s : State) (r : Reg) : (drawRead s r).lpCode = s.lpCode := rfl
@[simp] theorem drawRead_chrIn (s : State) (r : Reg) : (drawRead s r).chrIn = s.chrIn := rfl
@[simp] theorem drawRead_chrOut (s : State) (r : Reg) : (drawRead s r).chrOut = s.chrOut := rfl
@[simp] theorem drawRead_payload (s : State) (r : Reg) : (drawRead s r).payload = s.payload := rfl
@[simp] theorem drawRead_code (s : State) (r : Reg) : (drawRead s r).code = s.code := rfl
@[simp] theorem drawRead_ilv (s : State) (r : Reg) : (drawRead s r).ilv = s.ilv := rfl
@[simp] theorem drawRead_sym (s : State) (r : Reg) : (drawRead s r).sym = s.sym := rfl
@[simp] theorem drawRead_sr (s : State) (r : Reg) : (drawRead s r).sr = s.sr := rfl
@[simp] theorem drawRead_pend (s : State) (r : Reg) : (drawRead s r).pend = s.pend := rfl
@[simp] theorem drawRead_hostFault (s : State) (r : Reg) : (drawRead s r).hostFault = s.hostFault := rfl
@[simp] theorem drawRead_events (s : State) (r : Reg) : (drawRead s r).events = s.events := rfl
@[simp] theorem drawRead_rdata (s : State) (r : Reg) : (drawRead s r).rdata = some (Config.freeRead s.draws &&& r.mask) := rfl
@[simp] theorem drawRead_draws (s : State) (r : Reg) : (drawRead s r).draws = s.draws + 1 := rfl

/-! ### `applyReset` -/

@[simp] theorem applyReset_cmdOp (s : State) : (applyReset s).cmdOp = State.reset.cmdOp := rfl
@[simp] theorem applyReset_status (s : State) : (applyReset s).status = State.reset.status := rfl
@[simp] theorem applyReset_callLen (s : State) : (applyReset s).callLen = State.reset.callLen := rfl
@[simp] theorem applyReset_callA (s : State) : (applyReset s).callA = State.reset.callA := rfl
@[simp] theorem applyReset_callB (s : State) : (applyReset s).callB = State.reset.callB := rfl
@[simp] theorem applyReset_locLen (s : State) : (applyReset s).locLen = State.reset.locLen := rfl
@[simp] theorem applyReset_loc (s : State) : (applyReset s).loc = State.reset.loc := rfl
@[simp] theorem applyReset_power (s : State) : (applyReset s).power = State.reset.power := rfl
@[simp] theorem applyReset_csCode (s : State) : (applyReset s).csCode = State.reset.csCode := rfl
@[simp] theorem applyReset_lpCode (s : State) : (applyReset s).lpCode = State.reset.lpCode := rfl
@[simp] theorem applyReset_chrIn (s : State) : (applyReset s).chrIn = State.reset.chrIn := rfl
@[simp] theorem applyReset_chrOut (s : State) : (applyReset s).chrOut = State.reset.chrOut := rfl
@[simp] theorem applyReset_payload (s : State) : (applyReset s).payload = State.reset.payload := rfl
@[simp] theorem applyReset_code (s : State) : (applyReset s).code = State.reset.code := rfl
@[simp] theorem applyReset_ilv (s : State) : (applyReset s).ilv = State.reset.ilv := rfl
@[simp] theorem applyReset_sym (s : State) : (applyReset s).sym = State.reset.sym := rfl
@[simp] theorem applyReset_sr (s : State) : (applyReset s).sr = State.reset.sr := rfl
@[simp] theorem applyReset_pend (s : State) : (applyReset s).pend = State.reset.pend := rfl
@[simp] theorem applyReset_hostFault (s : State) : (applyReset s).hostFault = s.hostFault := rfl
@[simp] theorem applyReset_events (s : State) : (applyReset s).events = s.events := rfl
@[simp] theorem applyReset_rdata (s : State) : (applyReset s).rdata = s.rdata := rfl
@[simp] theorem applyReset_draws (s : State) : (applyReset s).draws = s.draws := rfl

/-! ### `placeCommand` -/

@[simp] theorem placeCommand_cmdOp (s : State) (v : Word) : (placeCommand s v).cmdOp = opField v := rfl
@[simp] theorem placeCommand_status (s : State) (v : Word) : (placeCommand s v).status = statusAccepted := rfl
@[simp] theorem placeCommand_callLen (s : State) (v : Word) : (placeCommand s v).callLen = s.callLen := rfl
@[simp] theorem placeCommand_callA (s : State) (v : Word) : (placeCommand s v).callA = s.callA := rfl
@[simp] theorem placeCommand_callB (s : State) (v : Word) : (placeCommand s v).callB = s.callB := rfl
@[simp] theorem placeCommand_locLen (s : State) (v : Word) : (placeCommand s v).locLen = s.locLen := rfl
@[simp] theorem placeCommand_loc (s : State) (v : Word) : (placeCommand s v).loc = s.loc := rfl
@[simp] theorem placeCommand_power (s : State) (v : Word) : (placeCommand s v).power = s.power := rfl
@[simp] theorem placeCommand_csCode (s : State) (v : Word) : (placeCommand s v).csCode = s.csCode := rfl
@[simp] theorem placeCommand_lpCode (s : State) (v : Word) : (placeCommand s v).lpCode = s.lpCode := rfl
@[simp] theorem placeCommand_chrIn (s : State) (v : Word) : (placeCommand s v).chrIn = s.chrIn := rfl
@[simp] theorem placeCommand_chrOut (s : State) (v : Word) : (placeCommand s v).chrOut = s.chrOut := rfl
@[simp] theorem placeCommand_payload (s : State) (v : Word) : (placeCommand s v).payload = s.payload := rfl
@[simp] theorem placeCommand_code (s : State) (v : Word) : (placeCommand s v).code = s.code := rfl
@[simp] theorem placeCommand_ilv (s : State) (v : Word) : (placeCommand s v).ilv = s.ilv := rfl
@[simp] theorem placeCommand_sym (s : State) (v : Word) : (placeCommand s v).sym = s.sym := rfl
@[simp] theorem placeCommand_sr (s : State) (v : Word) : (placeCommand s v).sr = s.sr := rfl
@[simp] theorem placeCommand_pend (s : State) (v : Word) : (placeCommand s v).pend = some (opField v) := rfl
@[simp] theorem placeCommand_hostFault (s : State) (v : Word) : (placeCommand s v).hostFault = false := rfl
@[simp] theorem placeCommand_events (s : State) (v : Word) : (placeCommand s v).events = .coreTurn :: s.events := rfl
@[simp] theorem placeCommand_rdata (s : State) (v : Word) : (placeCommand s v).rdata = s.rdata := rfl
@[simp] theorem placeCommand_draws (s : State) (v : Word) : (placeCommand s v).draws = s.draws := rfl

/-! ### `takeEvent` -/

@[simp] theorem takeEvent_cmdOp (s : State) (rest : List HostEvent) : (takeEvent s rest).cmdOp = s.cmdOp := rfl
@[simp] theorem takeEvent_status (s : State) (rest : List HostEvent) : (takeEvent s rest).status = s.status := rfl
@[simp] theorem takeEvent_callLen (s : State) (rest : List HostEvent) : (takeEvent s rest).callLen = s.callLen := rfl
@[simp] theorem takeEvent_callA (s : State) (rest : List HostEvent) : (takeEvent s rest).callA = s.callA := rfl
@[simp] theorem takeEvent_callB (s : State) (rest : List HostEvent) : (takeEvent s rest).callB = s.callB := rfl
@[simp] theorem takeEvent_locLen (s : State) (rest : List HostEvent) : (takeEvent s rest).locLen = s.locLen := rfl
@[simp] theorem takeEvent_loc (s : State) (rest : List HostEvent) : (takeEvent s rest).loc = s.loc := rfl
@[simp] theorem takeEvent_power (s : State) (rest : List HostEvent) : (takeEvent s rest).power = s.power := rfl
@[simp] theorem takeEvent_csCode (s : State) (rest : List HostEvent) : (takeEvent s rest).csCode = s.csCode := rfl
@[simp] theorem takeEvent_lpCode (s : State) (rest : List HostEvent) : (takeEvent s rest).lpCode = s.lpCode := rfl
@[simp] theorem takeEvent_chrIn (s : State) (rest : List HostEvent) : (takeEvent s rest).chrIn = s.chrIn := rfl
@[simp] theorem takeEvent_chrOut (s : State) (rest : List HostEvent) : (takeEvent s rest).chrOut = s.chrOut := rfl
@[simp] theorem takeEvent_payload (s : State) (rest : List HostEvent) : (takeEvent s rest).payload = s.payload := rfl
@[simp] theorem takeEvent_code (s : State) (rest : List HostEvent) : (takeEvent s rest).code = s.code := rfl
@[simp] theorem takeEvent_ilv (s : State) (rest : List HostEvent) : (takeEvent s rest).ilv = s.ilv := rfl
@[simp] theorem takeEvent_sym (s : State) (rest : List HostEvent) : (takeEvent s rest).sym = s.sym := rfl
@[simp] theorem takeEvent_sr (s : State) (rest : List HostEvent) : (takeEvent s rest).sr = s.sr := rfl
@[simp] theorem takeEvent_pend (s : State) (rest : List HostEvent) : (takeEvent s rest).pend = s.pend := rfl
@[simp] theorem takeEvent_hostFault (s : State) (rest : List HostEvent) : (takeEvent s rest).hostFault = s.hostFault := rfl
@[simp] theorem takeEvent_events (s : State) (rest : List HostEvent) : (takeEvent s rest).events = rest := rfl
@[simp] theorem takeEvent_rdata (s : State) (rest : List HostEvent) : (takeEvent s rest).rdata = s.rdata := rfl
@[simp] theorem takeEvent_draws (s : State) (rest : List HostEvent) : (takeEvent s rest).draws = s.draws := rfl

@[simp] theorem takeEvent_read (s : State) (rest : List HostEvent) (r : Reg) : Reg.read (takeEvent s rest) r = Reg.read s r := by
  cases r <;> rfl

/-! ### `Reg.store`: the fields no host write reaches -/

@[simp] theorem store_chrOut (s : State) (v : Word) (r : Reg) : (r.store s v).chrOut = s.chrOut := by cases r <;> rfl
@[simp] theorem store_sym (s : State) (v : Word) (r : Reg) : (r.store s v).sym = s.sym := by cases r <;> rfl
@[simp] theorem store_sr (s : State) (v : Word) (r : Reg) : (r.store s v).sr = s.sr := by cases r <;> rfl
@[simp] theorem store_hostFault (s : State) (v : Word) (r : Reg) : (r.store s v).hostFault = s.hostFault := by cases r <;> rfl
@[simp] theorem store_events (s : State) (v : Word) (r : Reg) : (r.store s v).events = s.events := by cases r <;> rfl
@[simp] theorem store_rdata (s : State) (v : Word) (r : Reg) : (r.store s v).rdata = s.rdata := by cases r <;> rfl
@[simp] theorem store_draws (s : State) (v : Word) (r : Reg) : (r.store s v).draws = s.draws := by cases r <;> rfl

/-- Only a write to CMD reaches STATUS, PEND and CMD itself (20_memory.md R66). -/
theorem store_lifecycle (s : State) (v : Word) (r : Reg) (h : r ≠ .cmd) :
    (r.store s v).status = s.status ∧ (r.store s v).pend = s.pend ∧ (r.store s v).cmdOp = s.cmdOp := by
  cases r <;> first | exact absurd rfl h | exact ⟨rfl, rfl, rfl⟩

end Sys2Proof.Laws
end

