-- ==== Sys2Proof/Laws/Commands.lean ====
section
/-! SUPPORT. What each command and each pure function can do, said once. -/

namespace Sys2Proof.Laws

open Sys2Proof.Machine

/-! ### Character codes -/

theorem encodeAlnum_le (c : Byte) : encodeAlnum c ≤ 36 := by
  unfold encodeAlnum
  split_ifs with hd hl hs
  · simp only [isDigit, Bool.and_eq_true, decide_eq_true_eq] at hd; omega
  · simp only [isLetter, Bool.and_eq_true, decide_eq_true_eq] at hl; omega
  all_goals omega

theorem encodeAlpha_le (c : Byte) : encodeAlpha c ≤ 26 := by
  unfold encodeAlpha
  split_ifs with hl hs
  · simp only [isLetter, Bool.and_eq_true, decide_eq_true_eq] at hl; omega
  all_goals omega

/-! ### The two ways a command can end -/

theorem encodeCallsign_error (n : Nat) (call : Nat → Byte) (e : ErrCode) (h : encodeCallsign n call = .error e) :
    e = .callsign := by
  simp only [encodeCallsign] at h
  repeat' split at h
  all_goals first | (injection h with h; exact h.symm) | exact absurd h (by simp)

theorem encodeLocatorPower_error (m : Nat) (loc : Nat → Byte) (p : Nat) (e : ErrCode)
    (h : encodeLocatorPower m loc p = .error e) : e = .locator ∨ e = .power := by
  simp only [encodeLocatorPower] at h
  repeat' split at h
  all_goals
    first
    | (injection h with h; exact .inl h.symm)
    | (injection h with h; exact .inr h.symm)
    | exact absurd h (by simp)

theorem convEncode_error (p : PayloadBuf) (e : ErrCode) (h : convEncode p = .error e) : e = .convBitSet := by
  simp only [convEncode] at h
  split at h
  · exact absurd h (by simp)
  · injection h with h; exact h.symm

/-- Everything a command can do: `complete u e` for some `u` that differs from `s` only in result registers and SR; on an error
`u` is `s` itself. -/
theorem exec_ends (i : Instr) (s : State) :
    (∃ e, e ≠ .none ∧ e ≠ .illegal ∧ exec i s = .next (complete s e)) ∨
    (∃ cs lp ch pl co il sy sr, exec i s = .next (complete
      { s with csCode := cs, lpCode := lp, chrOut := ch, payload := pl, code := co, ilv := il, sym := sy, sr := sr }
      .none)) := by
  cases i with
  | encode =>
    simp only [exec, execEncode]
    cases h : encodeMessage (callLength s) (callChar s) (locLength s) (locChar s) (powerValue s) with
    | ok r => exact .inr ⟨r.cs, r.lp, s.chrOut, r.pl, r.code, r.ilv, r.sym, r.sr, rfl⟩
    | error e =>
      refine .inl ⟨e, ?_, ?_, rfl⟩
      all_goals
        intro he
        subst he
        simp only [encodeMessage] at h
        split at h
        · rename_i e' h'; injection h with h; subst h; exact absurd (encodeCallsign_error _ _ _ h') (by decide)
        · split at h
          · rename_i e' h'; injection h with h; subst h; exact absurd (encodeLocatorPower_error _ _ _ _ h') (by decide)
          · split at h
            · rename_i e' h'; injection h with h; subst h; exact absurd (convEncode_error _ _ h') (by decide)
            · exact absurd h (by simp)
  | srcCallsign =>
    simp only [exec, execSrcCallsign]
    cases h : encodeCallsign (callLength s) (callChar s) with
    | ok r => exact .inr ⟨_, s.lpCode, s.chrOut, s.payload, s.code, s.ilv, s.sym, s.sr, rfl⟩
    | error e => exact .inl ⟨e, by rw [encodeCallsign_error _ _ _ h]; decide, by rw [encodeCallsign_error _ _ _ h]; decide, rfl⟩
  | srcLocpwr =>
    simp only [exec, execSrcLocpwr]
    cases h : encodeLocatorPower (locLength s) (locChar s) (powerValue s) with
    | ok r => exact .inr ⟨s.csCode, _, s.chrOut, s.payload, s.code, s.ilv, s.sym, s.sr, rfl⟩
    | error e =>
      refine .inl ⟨e, ?_, ?_, rfl⟩ <;> rcases encodeLocatorPower_error _ _ _ _ h with h | h <;> rw [h] <;> decide
  | pack => exact .inr ⟨s.csCode, s.lpCode, s.chrOut, _, s.code, s.ilv, s.sym, s.sr, rfl⟩
  | conv =>
    simp only [exec, execConv]
    cases h : convEncode s.payload with
    | ok r => exact .inr ⟨s.csCode, s.lpCode, s.chrOut, s.payload, r.2, s.ilv, s.sym, r.1, rfl⟩
    | error e => exact .inl ⟨e, by rw [convEncode_error _ _ h]; decide, by rw [convEncode_error _ _ h]; decide, rfl⟩
  | interleave => exact .inr ⟨s.csCode, s.lpCode, s.chrOut, s.payload, s.code, _, s.sym, s.sr, rfl⟩
  | assemble => exact .inr ⟨s.csCode, s.lpCode, s.chrOut, s.payload, s.code, s.ilv, _, s.sr, rfl⟩
  | chrAlnum => exact .inr ⟨s.csCode, s.lpCode, _, s.payload, s.code, s.ilv, s.sym, s.sr, rfl⟩
  | chrAlpha => exact .inr ⟨s.csCode, s.lpCode, _, s.payload, s.code, s.ilv, s.sym, s.sr, rfl⟩

/-! ### Packing -/

/-- Cell i of `pack` is 0x00 or 0x01, by bit 49 - i of `combined` (41_source_frame.md R135). -/
theorem payloadCell_packPayload (cs lp : Word) (i : Nat) (h : i < 50) :
    payloadCell (packPayload cs lp) i = (BitVec.ofBool ((packCombined cs lp).getLsbD (49 - i))).setWidth 8 :=
  cellAt_cellsOfFn 8 400 _ i (by omega)

/-- Every payload `pack` emits is binary (45_encode_top.md R202). -/
theorem payloadBinary_packPayload (cs lp : Word) : payloadBinary (packPayload cs lp) = true := by
  simp only [payloadBinary, List.all_eq_true, List.mem_range]
  intro i hi
  rw [payloadCell_packPayload cs lp i hi]
  cases (packCombined cs lp).getLsbD (49 - i) <;> decide

/-- `conv_encode` of a packed payload succeeds (45_encode_top.md R202). -/
theorem convEncode_packPayload (cs lp : Word) :
    convEncode (packPayload cs lp) = .ok (convSteps (paddedBit (packPayload cs lp)) 81) := by
  unfold convEncode
  rw [if_pos (payloadBinary_packPayload cs lp)]

/-! ### Assembling -/

theorem symCell_assembleSymbols (ilv : BitBuf) (i : Nat) (h : i < 162) :
    symCell (assembleSymbols ilv) i = BitVec.ofNat 2 (syncAt i + 2 * (ilv.getLsbD i).toNat) :=
  cellAt_cellsOfFn 2 324 _ i (by omega)

/-- SYNC holds only 0 and 1. -/
theorem syncAt_le (i : Nat) : syncAt i ≤ 1 := by
  have hall : ∀ x ∈ syncList, x ≤ 1 := by decide +kernel
  unfold syncAt
  rw [List.getD_eq_getElem?_getD]
  cases h : syncList[i]? with
  | none => simp
  | some x => simpa using hall x (List.mem_of_getElem? h)

/-! ### Convolution -/

theorem getLsbD_orBit (buf : BitBuf) (n j : Nat) (b : Bool) (hn : n < 162) :
    (orBit buf n b).getLsbD j = (buf.getLsbD j || (decide (j = n) && b)) := by
  by_cases hj : j < 162
  · rcases Nat.lt_trichotomy j n with h | h | h
    · have hne : j ≠ n := by omega
      simp [-BitVec.getLsbD_eq_getElem, orBit, BitVec.getLsbD_shiftLeft, h, hne]
    · subst h
      simp [-BitVec.getLsbD_eq_getElem, orBit, BitVec.getLsbD_shiftLeft, hj, BitVec.getLsbD_ofBool]
    · have h0 : ¬ j < n := by omega
      have h1 : j ≠ n := by omega
      have h2 : j - n ≠ 0 := by omega
      simp [-BitVec.getLsbD_eq_getElem, orBit, BitVec.getLsbD_shiftLeft, h0, h1, h2, BitVec.getLsbD_ofBool]
  · have hne : j ≠ n := by omega
    have h1 := BitVec.getLsbD_of_ge (orBit buf n b) j (by omega)
    have h2 := BitVec.getLsbD_of_ge buf j (by omega)
    simp [-BitVec.getLsbD_eq_getElem, h1, h2, hne]

theorem getLsbD_shiftIn (sr : Word) (u : Bool) (j : Nat) (hj : j < 32) :
    (shiftIn sr u).getLsbD j = if j = 0 then u else sr.getLsbD (j - 1) := by
  by_cases h : j = 0
  · subst h; simp [-BitVec.getLsbD_eq_getElem, shiftIn, BitVec.getLsbD_ofBool]
  · have h1 : ¬ j < 1 := by omega
    simp [-BitVec.getLsbD_eq_getElem, shiftIn, BitVec.getLsbD_shiftLeft, BitVec.getLsbD_ofBool, hj, h]

/-- After n steps SR[j] = u[n-1-j] while there is such an input bit, else 0 (42_conv_encoder.md R164). -/
theorem convSteps_sr (u : Nat → Bool) (n j : Nat) (hj : j < 32) :
    (convSteps u n).1.getLsbD j = (decide (j < n) && u (n - 1 - j)) := by
  induction n generalizing j with
  | zero => simp [convSteps]
  | succ n ih =>
    have hstep : (convSteps u (n + 1)).1 = shiftIn (convSteps u n).1 (u n) := by simp [convSteps]
    rw [hstep, getLsbD_shiftIn _ _ _ hj]
    by_cases h : j = 0
    · subst h; simp
    · have hlt : (j - 1 < n) ↔ (j < n + 1) := by omega
      have hidx : n - 1 - (j - 1) = n + 1 - 1 - j := by omega
      simp only [h, if_false, ih (j - 1) (by omega), hlt, hidx]

/-- After n steps the code bits of step t < n are the parities of SR after that step (42_conv_encoder.md R165, R166). -/
theorem convSteps_code (u : Nat → Bool) (n : Nat) (hn : n ≤ 81) (t : Nat) :
    (convSteps u n).2.getLsbD (2 * t) = (decide (t < n) && parity ((convSteps u (t + 1)).1 &&& poly1)) ∧
    (convSteps u n).2.getLsbD (2 * t + 1) = (decide (t < n) && parity ((convSteps u (t + 1)).1 &&& poly2)) := by
  induction n with
  | zero => simp [convSteps]
  | succ n ih =>
    have ih := ih (by omega)
    have hsr : (convSteps u (n + 1)).1 = shiftIn (convSteps u n).1 (u n) := by simp [convSteps]
    have hcode : (convSteps u (n + 1)).2 =
        orBit (orBit (convSteps u n).2 (2 * n) (parity ((convSteps u (n + 1)).1 &&& poly1))) (2 * n + 1)
          (parity ((convSteps u (n + 1)).1 &&& poly2)) := by
      rw [hsr]; simp [convSteps]
    rw [hcode]
    simp only [getLsbD_orBit _ (2 * n) _ _ (by omega), getLsbD_orBit _ (2 * n + 1) _ _ (by omega), ih]
    rcases Nat.lt_trichotomy t n with h | h | h
    · simp [show t < n + 1 by omega, show t ≠ n by omega, h, show ¬ 2 * t = 2 * n + 1 by omega,
        show ¬ 2 * t + 1 = 2 * n by omega]
    · subst h; simp
    · simp [show ¬ t < n + 1 by omega, show t ≠ n by omega, show ¬ t < n by omega, show ¬ 2 * t = 2 * n + 1 by omega,
        show ¬ 2 * t + 1 = 2 * n by omega]

/-! ### Interleaving -/

/-- Bit i of a scattered buffer: what was there, or a code bit whose target is i. -/
theorem getLsbD_scatterBits (code : BitBuf) (js : List Nat) (p : Nat) (buf : BitBuf) (hj : ∀ j ∈ js, j < 162) (i : Nat) :
    (scatterBits code js p buf).getLsbD i =
      (buf.getLsbD i || (List.range js.length).any fun k => decide (js[k]? = some i) && code.getLsbD (p + k)) := by
  induction js generalizing p buf with
  | nil => simp [scatterBits]
  | cons j js ih =>
    have hbit := getLsbD_orBit buf j i (code.getLsbD p) (hj j (by simp))
    unfold orBit at hbit
    rw [scatterBits, ih _ _ (fun x hx => hj x (List.mem_cons_of_mem _ hx)), hbit, List.length_cons,
      List.range_succ_eq_map, List.any_cons, List.any_map]
    simp only [Bool.or_assoc, List.getElem?_cons_zero, Nat.add_zero, Function.comp_def, List.getElem?_cons_succ]
    congr 2
    · congr 1; simp; exact eq_comm
    · congr 1; funext k; rw [show p + 1 + k = p + (k + 1) by omega]

end Sys2Proof.Laws
end

