-- ==== Sys2Proof/Laws/Lifecycle.lean ====
section
/-! SUPPORT. What each shared operation can do, said once: host reads, host writes, the core's turn, one step. -/

namespace Sys2Proof.Laws

open Sys2Proof.Machine

/-- Everything a host read can do: an access not admitted, a current value while idle, and the three answers while busy. -/
theorem hostRead_cases (bits : Nat) (off : Offset) (s : State) :
    (admitted bits off = false ∧ hostRead bits off s = { setHostFault s with rdata := none }) ∨
    (admitted bits off = true ∧ s.status.busy = false ∧ hostRead bits off s = answerRead s ((regAt off).read s)) ∨
    (admitted bits off = true ∧ s.status.busy = true ∧ regAt off = .status ∧
      hostRead bits off s = answerRead s statusAccepted.word) ∨
    (admitted bits off = true ∧ s.status.busy = true ∧ regAt off ≠ .status ∧ pendingWrites s (regAt off) = true ∧
      hostRead bits off s = drawRead s (regAt off)) ∨
    (admitted bits off = true ∧ s.status.busy = true ∧ regAt off ≠ .status ∧ pendingWrites s (regAt off) = false ∧
      hostRead bits off s = answerRead s ((regAt off).read s)) := by
  unfold hostRead
  cases hadm : admitted bits off
  · simp
  · cases hbusy : s.status.busy
    · simp
    · by_cases hst : regAt off = .status
      · simp [busyRead, hst]
      · cases hw : pendingWrites s (regAt off) <;> simp [busyRead, hst, hw]

/-- Everything a host write can do: a host fault, or a store while idle. -/
theorem hostWrite_cases (bits : Nat) (off : Offset) (v : Word) (s : State) :
    ((admitted bits off = false ∨ s.status.busy = true) ∧ hostWrite bits off v s = setHostFault s) ∨
    (admitted bits off = true ∧ s.status.busy = false ∧ hostWrite bits off v s = (regAt off).store s v) := by
  unfold hostWrite
  cases hadm : admitted bits off
  · simp
  · cases hbusy : s.status.busy <;> simp

/-- A host read changes nothing but the model's own fields and the HOSTFAULT mark. -/
theorem hostRead_registers (bits : Nat) (off : Offset) (s : State) :
    ∃ hf rd dr, hostRead bits off s = { s with hostFault := hf, rdata := rd, draws := dr } := by
  rcases hostRead_cases bits off s with h | h | h | h | h
  · exact ⟨true, none, s.draws, h.2⟩
  · exact ⟨s.hostFault, _, s.draws, h.2.2⟩
  · exact ⟨s.hostFault, _, s.draws, h.2.2.2⟩
  · exact ⟨s.hostFault, _, s.draws + 1, h.2.2.2.2⟩
  · exact ⟨s.hostFault, _, s.draws, h.2.2.2.2⟩

/-- The event a step takes: the head of the list, or the core's turn when the list is empty. -/
theorem step_takes (s : State) :
    (s.events = [] ∧ step s = guardedEvent .coreTurn s) ∨
    (∃ e rest, s.events = e :: rest ∧ step s = guardedEvent e (takeEvent s rest)) := by
  unfold step nextStep
  cases h : s.events with
  | nil => exact .inl ⟨rfl, rfl⟩
  | cons e rest => exact .inr ⟨e, rest, rfl, rfl⟩

/-- An event in a run with a meaning is simply run. -/
theorem guardedEvent_safe (e : HostEvent) (s : State) (h : s.hostFault = false) : guardedEvent e s = runEvent e s := by
  simp [guardedEvent, h]

/-- One step in a run with a meaning, with an event to take. -/
theorem step_event (s : State) (e : HostEvent) (rest : List HostEvent) (h : s.hostFault = false)
    (he : s.events = e :: rest) : step s = runEvent e (takeEvent s rest) := by
  simp [step, nextStep, he, guardedEvent, h]

/-- One step in a run with a meaning, with no event left. -/
theorem step_noEvent (s : State) (h : s.hostFault = false) (he : s.events = []) : step s = coreStep s := by
  simp [step, nextStep, he, guardedEvent, runEvent, h]

/-- If an event gives a next state, either HOSTFAULT was 0 or the event was reset; either way it was run. -/
theorem guardedEvent_next (e : HostEvent) (s t : State) (h : guardedEvent e s = .next t) :
    (s.hostFault = false ∨ e = .reset) ∧ runEvent e s = .next t := by
  unfold guardedEvent at h
  split at h
  · exact absurd h (by simp)
  · rename_i hn
    refine ⟨?_, h⟩
    by_cases he : e = .reset
    · exact .inr he
    · exact .inl (by simpa [he] using hn)

end Sys2Proof.Laws
end

