-- ==== Sys2Proof/Laws/PerInstr.lean ====
section
/-! SUPPORT. Facts about every command as syntax, one lemma per constructor. -/

/-- The family AssignedOpcode: the command's opcode is one of 0x01 to 0x09, and the word that issues it is that opcode with bits
[31:8] zero (30_encoding.md R92, R97). -/
def Sys2Proof.Laws.AssignedOpcode.Statement (i : Sys2Proof.Instr) : Prop :=
  1 ≤ (Sys2Proof.opcodeOf i).toNat ∧ (Sys2Proof.opcodeOf i).toNat ≤ 9 ∧
    (Sys2Proof.encode i).toNat = (Sys2Proof.opcodeOf i).toNat

namespace Sys2Proof.Laws.AssignedOpcode

theorem encode : Statement .encode := by unfold Statement; decide
theorem srcCallsign : Statement .srcCallsign := by unfold Statement; decide
theorem srcLocpwr : Statement .srcLocpwr := by unfold Statement; decide
theorem pack : Statement .pack := by unfold Statement; decide
theorem conv : Statement .conv := by unfold Statement; decide
theorem interleave : Statement .interleave := by unfold Statement; decide
theorem assemble : Statement .assemble := by unfold Statement; decide
theorem chrAlnum : Statement .chrAlnum := by unfold Statement; decide
theorem chrAlpha : Statement .chrAlpha := by unfold Statement; decide

end Sys2Proof.Laws.AssignedOpcode
end

