-- ==== Sys2Proof/Laws/Registers.lean ====
section
/-! SUPPORT. The register map: which words exist, and what a store to one register leaves of the others. -/

namespace Sys2Proof.Laws

open Sys2Proof.Machine

/-- A fact about the register at every word of the window is a fact about the register at every offset. -/
theorem regAt_of_words (p : Reg → Prop) (h : ∀ w < 64, p (regWord w)) (off : Offset) : p (regAt off) :=
  h _ (by have := off.isLt; omega)

/-- A word index the register map of 10_state.md R23 has. -/
def regInRange : Reg → Bool
  | .payload w => w ≤ 12
  | .code w => w ≤ 5
  | .ilv w => w ≤ 5
  | .sym w => w ≤ 10
  | _ => true

/-- The word indices the register map gives are those of 10_state.md R23. -/
theorem regAt_inRange (off : Offset) : regInRange (regAt off) = true :=
  regAt_of_words (fun r => regInRange r = true) (by decide) off

/-- Offset 0 is CMD. -/
@[simp] theorem regAt_zero : regAt 0#8 = .cmd := by decide

/-- Bit k of a word whose low m bits are one and whose other bits are zero. -/
theorem getLsbD_lowOnes (m : Nat) (hm : m ≤ 32) (k : Nat) : (BitVec.ofNat 32 (2 ^ m - 1)).getLsbD k = decide (k < m) := by
  rw [BitVec.getLsbD_ofNat, Nat.testBit_two_pow_sub_one]
  by_cases h : k < m
  · have h32 : k < 32 := by omega
    simp [h, h32]
  · simp [h]

/-- How many bits of a register are not reserved; STATUS, whose bits [3:2] are reserved, is left to `Reg.mask`. -/
def regWidth : Reg → Nat
  | .cmd => 8
  | .status => 8
  | .callLen => 8
  | .callA => 32
  | .callB => 16
  | .locLen => 8
  | .loc => 32
  | .power => 32
  | .csCode => 32
  | .lpCode => 32
  | .chrIn => 8
  | .chrOut => 6
  | .payload w => 400 - 32 * w
  | .code w => 162 - 32 * w
  | .ilv w => 162 - 32 * w
  | .sym w => 324 - 32 * w
  | .unmapped => 0

/-- Outside STATUS the bits that are not reserved are the low ones (20_memory.md R67). -/
theorem getLsbD_mask (r : Reg) (hr : r ≠ .status) (k : Nat) (hk : k < 32) : r.mask.getLsbD k = decide (k < regWidth r) := by
  have key : ∀ m n v : Nat, v = 2 ^ m - 1 → m ≤ 32 → (k < m ↔ k < n) → (BitVec.ofNat 32 v).getLsbD k = decide (k < n) := by
    intro m n v hv hm h
    rw [hv, getLsbD_lowOnes m hm, decide_eq_decide]
    exact h
  cases r with
  | status => exact absurd rfl hr
  | payload w =>
    simp only [Reg.mask]
    split_ifs
    · exact key 32 (400 - 32 * w) _ rfl (by omega) (by omega)
    · exact key 16 (400 - 32 * w) _ rfl (by omega) (by omega)
    · exact key 0 (400 - 32 * w) _ rfl (by omega) (by omega)
  | code w =>
    simp only [Reg.mask]
    split_ifs
    · exact key 32 (162 - 32 * w) _ rfl (by omega) (by omega)
    · exact key 2 (162 - 32 * w) _ rfl (by omega) (by omega)
    · exact key 0 (162 - 32 * w) _ rfl (by omega) (by omega)
  | ilv w =>
    simp only [Reg.mask]
    split_ifs
    · exact key 32 (162 - 32 * w) _ rfl (by omega) (by omega)
    · exact key 2 (162 - 32 * w) _ rfl (by omega) (by omega)
    · exact key 0 (162 - 32 * w) _ rfl (by omega) (by omega)
  | sym w =>
    simp only [Reg.mask]
    split_ifs
    · exact key 32 (324 - 32 * w) _ rfl (by omega) (by omega)
    · exact key 4 (324 - 32 * w) _ rfl (by omega) (by omega)
    · exact key 0 (324 - 32 * w) _ rfl (by omega) (by omega)
  | unmapped => exact key 0 0 _ rfl (by omega) (by omega)
  | cmd => exact key 8 8 _ rfl (by omega) (by omega)
  | callLen => exact key 8 8 _ rfl (by omega) (by omega)
  | locLen => exact key 8 8 _ rfl (by omega) (by omega)
  | chrIn => exact key 8 8 _ rfl (by omega) (by omega)
  | callB => exact key 16 16 _ rfl (by omega) (by omega)
  | chrOut => exact key 6 6 _ rfl (by omega) (by omega)
  | _ => exact key 32 32 _ rfl (by omega) (by omega)

/-- The admission check, as the rule words it (20_memory.md R62). -/
theorem admitted_eq_false (bits : Nat) (off : Offset) :
    admitted bits off = false ↔ (bits ≠ 32 ∨ off.toNat % 4 ≠ 0) := by
  rw [admitted, Bool.and_eq_false_iff, beq_eq_false_iff_ne, beq_eq_false_iff_ne]

/-- Storing to a register other than CMD leaves every other register (20_memory.md R69). -/
theorem read_store_other (s : State) (v : Word) (r r' : Reg) (h : r' ≠ r) (hc : r ≠ .cmd) :
    Reg.read (r.store s v) r' = Reg.read s r' := by
  cases r <;> cases r' <;> first | rfl | exact absurd rfl h | exact absurd rfl hc | skip
  all_goals exact wordAt_setWordAt_other _ _ _ _ (by rintro rfl; exact h rfl)

end Sys2Proof.Laws
end

