-- ==== Sys2Proof/Tests/Slice0.lean ====
section
/-! SUPPORT. The model's own tests: expected values from spec/95_test_vectors.md, 43_interleaver.md R182 and 30_encoding.md R98,
and one witness per obligation that has hypotheses: a concrete state and operands that meet all of them together. -/

namespace Sys2Proof.Tests

-- One theorem at a time: a thread for each would take more memory than the check allows.
set_option Elab.async false

open Sys2Proof Sys2Proof.Machine

/-! ### Helpers -/

/-- The state an outcome answers, or reset. -/
def stateOf (o : Host.Outcome State Fault Refusal) : State :=
  match o with
  | .next s => s
  | .fault _ => State.reset
  | .refused _ => State.reset

/-- The state after the command `i`. -/
def after (i : Instr) (s : State) : State := stateOf (exec i s)

/-- Every command answers a next state, so `after` is that state. -/
theorem exec_after (i : Instr) (s : State) : exec i s = .next (after i s) := by
  rcases Laws.exec_ends i s with ⟨_, _, _, h⟩ | ⟨_, _, _, _, _, _, _, _, h⟩ <;> rw [after, h] <;> rfl

/-- The reset state with the callsign registers written. -/
def withCall (len : Byte) (a : Word) (b : BitVec 16) : State := { State.reset with callLen := len, callA := a, callB := b }

/-- The reset state with the message registers written. -/
def withMessage (len : Byte) (a : Word) (b : BitVec 16) (m : Byte) (loc p : Word) : State :=
  { withCall len a b with locLen := m, loc := loc, power := p }

/-- "DB2LA", "JO43", 30: the message of V-E1. -/
def messageE1 : State := withMessage 5 0x4C324244 0x0041 4 0x33344F4A 30

/-- CONV accepted right after reset. -/
def pendingConv : State := acceptCommand State.reset 5

/-- The words of registers `r 0` to `r (n - 1)`. -/
def wordsOf (s : State) (r : Nat → Reg) (n : Nat) : List Word := (List.range n).map fun w => Reg.read s (r w)

/-! ### Well-formedness: ill-formed events are refused -/

theorem test_wf_refuses_8_bit_write : HostEvent.wellFormed (.write 8 0x00 1) = false := by decide
theorem test_wf_refuses_16_bit_read : HostEvent.wellFormed (.read 16 0x04) = false := by decide
theorem test_wf_refuses_64_bit_write : HostEvent.wellFormed (.write 64 0x08 1) = false := by decide
theorem test_wf_refuses_misaligned_read : HostEvent.wellFormed (.read 32 0x02) = false := by decide
theorem test_wf_refuses_misaligned_write : HostEvent.wellFormed (.write 32 0x0D 1) = false := by decide
theorem test_wf_accepts : HostEvent.wellFormed (.read 32 0x04) = true ∧ HostEvent.wellFormed (.write 32 0xFC 0) = true ∧
    HostEvent.wellFormed .reset = true ∧ HostEvent.wellFormed .coreTurn = true ∧ Instr.wellFormed .encode = true := by decide

/-! ### Decoding: the words of 30_encoding.md R92, bit by bit, and R98 -/

theorem test_decode_encode : decode 0b00000000000000000000000000000001 = .ok .encode := by decide
theorem test_decode_srcCallsign : decode 0b00000000000000000000000000000010 = .ok .srcCallsign := by decide
theorem test_decode_srcLocpwr : decode 0b00000000000000000000000000000011 = .ok .srcLocpwr := by decide
theorem test_decode_pack : decode 0b00000000000000000000000000000100 = .ok .pack := by decide
theorem test_decode_conv : decode 0b00000000000000000000000000000101 = .ok .conv := by decide
theorem test_decode_interleave : decode 0b00000000000000000000000000000110 = .ok .interleave := by decide
theorem test_decode_assemble : decode 0b00000000000000000000000000000111 = .ok .assemble := by decide
theorem test_decode_chrAlnum : decode 0b00000000000000000000000000001000 = .ok .chrAlnum := by decide
theorem test_decode_chrAlpha : decode 0b00000000000000000000000000001001 = .ok .chrAlpha := by decide

/-- V-RS4 and R98: bits [31:8] are ignored. -/
theorem test_decode_ignores_high_bits : decode 0xFFFFFF05 = .ok .conv ∧ decode 0x00000105 = .ok .conv := by decide

/-- V-RS1, V-RS2, V-RS3: reserved opcodes are refused by name. -/
theorem test_decode_reserved : decode 0x00000000 = .error (.reservedOpcode 0x00) ∧
    decode 0x0000000A = .error (.reservedOpcode 0x0A) ∧ decode 0x000000FF = .error (.reservedOpcode 0xFF) := by decide

/-- The table's words as the host gives them. -/
theorem test_decodeTableWord : decodeTableWord 8 0x01 = some .encode ∧ decodeTableWord 32 0x00000009 = some .chrAlpha ∧
    decodeTableWord 8 0x0A = none := by decide

/-! ### The constants -/

/-- 43_interleaver.md R182, rows p = 0 to 70. -/
def permRowsLow : List Nat :=
  [0, 128, 64, 32, 160, 96, 16, 144, 80, 48] ++ [112, 8, 136, 72, 40, 104, 24, 152, 88, 56] ++
  [120, 4, 132, 68, 36, 100, 20, 148, 84, 52] ++ [116, 12, 140, 76, 44, 108, 28, 156, 92, 60] ++
  [124, 2, 130, 66, 34, 98, 18, 146, 82, 50] ++ [114, 10, 138, 74, 42, 106, 26, 154, 90, 58] ++
  [122, 6, 134, 70, 38, 102, 22, 150, 86, 54] ++ [118, 14, 142, 78, 46, 110, 30, 158, 94, 62]

/-- 43_interleaver.md R182, rows p = 80 to 160. -/
def permRowsHigh : List Nat :=
  [126, 1, 129, 65, 33, 161, 97, 17, 145, 81] ++ [49, 113, 9, 137, 73, 41, 105, 25, 153, 89] ++
  [57, 121, 5, 133, 69, 37, 101, 21, 149, 85] ++ [53, 117, 13, 141, 77, 45, 109, 29, 157, 93] ++
  [61, 125, 3, 131, 67, 35, 99, 19, 147, 83] ++ [51, 115, 11, 139, 75, 43, 107, 27, 155, 91] ++
  [59, 123, 7, 135, 71, 39, 103, 23, 151, 87] ++ [55, 119, 15, 143, 79, 47, 111, 31, 159, 95] ++ [63, 127]

/-- The computed PERM is the table of 43_interleaver.md R182. -/
theorem test_perm_is_the_table : permList = permRowsLow ++ permRowsHigh := by decide +kernel

/-- 44_frame_assembler.md R190: 162 elements, 63 ones. -/
theorem test_sync_size : syncList.length = 162 ∧ syncList.countP (· == 1) = 63 := by decide +kernel

/-- 42_conv_encoder.md R160: the polynomials, bits 0 to 31. -/
theorem test_poly1_bits : ((List.range 32).map fun k => (poly1.getLsbD k).toNat) =
    [1,0,0,0,1,0,1,0,1,1,0,0,1,0,1,0] ++ [0,0,0,0,1,0,1,1,0,1,0,0,1,1,1,1] := by decide +kernel
theorem test_poly2_bits : ((List.range 32).map fun k => (poly2.getLsbD k).toNat) =
    [1,1,1,0,0,0,1,0,0,0,1,1,1,1,0,0] ++ [1,0,0,0,0,1,1,0,0,0,1,0,0,1,1,1] := by decide +kernel

/-! ### The commands, on vectors of 95_test_vectors.md -/

/-- V-E1, the source's own vector. -/
theorem test_encode_E1 : wordsOf (after .encode messageE1) .sym 11 =
    [0x1FA9A08D, 0x2A15E612, 0x9A826E9A, 0x1BC8C72D, 0xC3BB394A, 0xBB36A512, 0x70C12A1A, 0x5406787B, 0xA250EEA0, 0xB605BBC8,
     0x00000008] := by decide +kernel
/-- V-E7: the locator error wins over the power error, and CS_CODE is not written. -/
theorem test_encode_E7 : Reg.read (after .encode (withMessage 5 0x4C324244 0x0041 4 0x33345A5A 61)) .status = 0x32 ∧
    (after .encode (withMessage 5 0x4C324244 0x0041 4 0x33345A5A 61)).csCode = 0 := by decide +kernel

/-- V-SC7: the realignment drops the sixth character. -/
theorem test_srcCallsign_SC7 : (after .srcCallsign (withCall 6 0x4241314B 0x4443)).csCode = 0x0F70C238 := by decide +kernel
/-- V-SE6: a letter after a space in the suffix. -/
theorem test_srcCallsign_SE6 : Reg.read (after .srcCallsign (withCall 5 0x20314241 0x0043)) .status = 0x22 := by decide +kernel

/-- V-LP7: the largest code. -/
theorem test_srcLocpwr_LP7 : (after .srcLocpwr (withMessage 0 0 0 4 0x39305241 60)).lpCode = 0x003F47FC := by decide +kernel
/-- V-LE8: the locator is checked before the power. -/
theorem test_srcLocpwr_LE8 : Reg.read (after .srcLocpwr (withMessage 0 0 0 4 0x33345A5A 61)) .status = 0x32 := by decide +kernel

/-- V-PK3: LP_CODE is not masked. -/
theorem test_pack_PK3 : wordsOf (after .pack { State.reset with lpCode := 0xFFFFFFFF }) .payload 13 =
    [0, 0, 0, 0, 0x01010000, 0x01010101, 0x01010101, 0x01010101, 0x01010101, 0x01010101, 0x01010101, 0x01010101, 0x00000101] := by
  decide +kernel
/-- V-PK6 and V-PK7: bit 27 of CS_CODE lands in cell 0, bit 28 is dropped. -/
theorem test_pack_PK6_PK7 : (after .pack { State.reset with csCode := 0x08000000 }).payload = 1 ∧
    (after .pack { State.reset with csCode := 0x10000000 }).payload = 0 := by decide +kernel

/-- V-CV2: the impulse at cell 0. -/
theorem test_conv_CV2 : wordsOf (after .conv { State.reset with payload := 1 }) .code 6 =
    [0x1BA5312B, 0xFD247902, 0, 0, 0, 0] := by decide +kernel
/-- V-CV6: a cell holding 2 is rejected and CODE is unchanged. -/
theorem test_conv_CV6 : Reg.read (after .conv { State.reset with payload := 2, code := 5 }) .status = 0x12 ∧
    (after .conv { State.reset with payload := 2, code := 5 }).code = 5 := by decide +kernel

/-- V-IL5: CODE[85] goes to position 161. -/
theorem test_interleave_IL5 : wordsOf (after .interleave { State.reset with code := 1 <<< 85 }) .ilv 6 = [0, 0, 0, 0, 0, 2] := by
  decide +kernel
/-- V-IL6: CODE[161] goes to position 127. -/
theorem test_interleave_IL6 : wordsOf (after .interleave { State.reset with code := 1 <<< 161 }) .ilv 6 =
    [0, 0, 0, 0x80000000, 0, 0] := by decide +kernel

/-- V-AS4: only ILV[128] = 1. -/
theorem test_assemble_AS4 : wordsOf (after .assemble { State.reset with ilv := 1 <<< 128 }) .sym 11 =
    [0x15010005, 0x00154410, 0x10004410, 0x11404505, 0x41111140, 0x11140510, 0x50410010, 0x54045051, 0x00504402, 0x14051140,
     0] := by decide +kernel

/-- V-CH4 and V-CH5: 'Z' and ' '. -/
theorem test_chrAlnum_CH4_CH5 : Reg.read (after .chrAlnum { State.reset with chrIn := 0x5A }) .chrOut = 0x23 ∧
    Reg.read (after .chrAlnum { State.reset with chrIn := 0x20 }) .chrOut = 0x24 := by decide
/-- V-CH6: lower case is not folded. -/
theorem test_chrAlnum_CH6 : (after .chrAlnum { State.reset with chrIn := 0x7A, chrOut := 9 }).chrOut = 0 := by decide
/-- V-CH4 and V-CH5. -/
theorem test_chrAlpha_CH4_CH5 : Reg.read (after .chrAlpha { State.reset with chrIn := 0x5A }) .chrOut = 0x19 ∧
    Reg.read (after .chrAlpha { State.reset with chrIn := 0x20 }) .chrOut = 0x1A := by decide
/-- V-CH2: a digit gives 0. -/
theorem test_chrAlpha_CH2 : (after .chrAlpha { State.reset with chrIn := 0x39, chrOut := 9 }).chrOut = 0 := by decide

/-! ### Host accesses -/

/-- V-RS3: a reserved opcode completes with 0xF2 and CMD still shows it. -/
theorem test_reserved_RS3 : Reg.read (stateOf (step (acceptCommand State.reset 0xFF))) .status = 0xF2 ∧
    Reg.read (stateOf (step (acceptCommand State.reset 0xFF))) .cmd = 0xFF := by decide
/-- V-CV8: a write to PAYLOAD_12[16] is ignored. -/
theorem test_write_reserved_bits : (stateOf (step { State.reset with events := [hostW (.payload 12) 0x00010000] })).payload = 0 := by
  decide +kernel
/-- P1 line 1, `LOADCALL "DB2LA"`. -/
theorem test_loadCall : loadCall [0x44, 0x42, 0x32, 0x4C, 0x41] =
    [.write 32 0x08 5, .write 32 0x0C 0x4C324244, .write 32 0x10 0x41] := by decide
/-- P1 line 2, `LOADLOC "JO43"`. -/
theorem test_loadLoc : loadLoc [0x4A, 0x4F, 0x34, 0x33] = [.write 32 0x14 4, .write 32 0x18 0x33344F4A] := by decide
/-- P6: a second command while one is pending is a host fault. -/
theorem test_write_while_busy : (stateOf (step { pendingConv with events := [hostCmd .conv] })).hostFault = true := by decide

/-! ### Witnesses: concrete states and operands that meet the hypotheses of each obligation together -/

theorem witness_StepRunsPendingCommand :
    pendingConv.hostFault = false ∧ pendingConv.pend = some 5 ∧ decode ((5 : Opcode).setWidth 32) = .ok .conv ∧
    pendingConv.events = [] ∧ { pendingConv with events := [.coreTurn, hostR .status] }.events = .coreTurn :: [hostR .status] := by
  decide

theorem witness_PlacedWordRunsNext : decodeTableWord 8 5 = some .conv := by decide

/-- Boundary opcodes 0x00, 0x0A and 0xFF; no event left, and the core's turn next. -/
theorem witness_ReservedOpcodeCompletesIllegal :
    ∀ op ∈ ([0x00, 0x0A, 0xFF] : List Opcode), (acceptCommand State.reset (op.setWidth 32)).hostFault = false ∧
      (acceptCommand State.reset (op.setWidth 32)).pend = some op ∧ (op.toNat = 0 ∨ 0x0A ≤ op.toNat) ∧
      (acceptCommand State.reset (op.setWidth 32)).events = [] ∧
      { acceptCommand State.reset (op.setWidth 32) with events := [.coreTurn] }.events = [.coreTurn] := by decide

theorem witness_IdleBlockKeepsItsState :
    State.reset.hostFault = false ∧ State.reset.pend = none ∧ State.reset.events = [] ∧
    { State.reset with events := [.coreTurn] }.events = .coreTurn :: [] := by decide

theorem witness_CommandWriteIsAccepted :
    { State.reset with events := [hostCmd .encode] }.hostFault = false ∧
    { State.reset with events := [hostCmd .encode] }.events = .write 32 0x00 1 :: [] ∧
    { State.reset with events := [hostCmd .encode] }.status.busy = false ∧
    { pendingConv with events := [hostCmd .encode] }.status.busy = true := by decide

theorem witness_WriteWhileBusyIsHostFault :
    pendingConv.hostFault = false ∧ pendingConv.status.busy = true ∧
    { pendingConv with events := [.write 32 0xFC 7] }.events = .write 32 0xFC 7 :: [] := by decide

/-- A wrong width, and wrong alignments 1, 2 and 3. -/
theorem witness_InadmissibleAccessIsHostFault :
    State.reset.hostFault = false ∧ ((8 : Nat) ≠ 32 ∨ (0x00 : Offset).toNat % 4 ≠ 0) ∧
    (∀ off ∈ ([0x01, 0x02, 0x03, 0xFF] : List Offset), off.toNat % 4 ≠ 0) ∧
    { State.reset with events := [.read 8 0x00] }.events = .read 8 0x00 :: [] ∧
    { State.reset with events := [.write 32 0x02 1] }.events = .write 32 0x02 1 :: [] := by decide

/-- Each cause, and a step without one. -/
theorem witness_HostFaultHasTwoCauses :
    step { State.reset with events := [.read 8 0x00] } = .next { State.reset with hostFault := true } ∧
    step { pendingConv with events := [.write 32 0x1C 0] } = .next { pendingConv with hostFault := true } ∧
    step State.reset = .next State.reset := ⟨rfl, rfl, rfl⟩

theorem witness_HostFaultStaysSet :
    (setHostFault { State.reset with events := [.reset] }).hostFault = true ∧
    (setHostFault { State.reset with events := [.reset] }).events = .reset :: [] ∧
    step (setHostFault { State.reset with events := [.reset] }) = .next (setHostFault State.reset) ∧
    State.reset.final = true ∧ pendingConv.final = false ∧ (setHostFault State.reset).final = false ∧
    { State.reset with events := [.coreTurn] }.final = false := ⟨rfl, rfl, rfl, rfl, rfl, rfl, rfl⟩

theorem witness_HostFaultStopsEveryStepButReset :
    (setHostFault pendingConv).hostFault = true ∧ ∀ rest, (setHostFault pendingConv).events ≠ .reset :: rest :=
  ⟨rfl, fun _ h => nomatch h⟩

/-- Every RW register but CMD, the buffers at their first and last words. -/
theorem witness_WriteStoresNonReservedBits :
    ∀ off ∈ ([0x08, 0x0C, 0x10, 0x14, 0x18, 0x1C, 0x20, 0x24, 0x28, 0x40, 0x70, 0x80, 0x94, 0xA0, 0xB4] : List Offset),
      { State.reset with events := [.write 32 off 1] }.hostFault = false ∧
      { State.reset with events := [.write 32 off 1] }.status.busy = false ∧ off.toNat % 4 = 0 ∧
      { State.reset with events := [.write 32 off 1] }.events = .write 32 off 1 :: [] ∧
      regAt off ≠ .cmd ∧ regAt off ≠ .status ∧ regAt off ≠ .chrOut ∧ (∀ w, regAt off ≠ .sym w) ∧ regAt off ≠ .unmapped := by
  intro off h
  fin_cases h <;> exact ⟨rfl, rfl, rfl, rfl, by decide, by decide, by decide, (fun _ hw => Reg.noConfusion hw), by decide⟩

/-- STATUS, CHR_OUT and the first and last word of SYM and of each unmapped range; idle and busy. -/
theorem witness_ReadOnlyWriteIsIgnored :
    State.reset.hostFault = false ∧ State.reset.status.busy = false ∧ pendingConv.hostFault = false ∧ pendingConv.status.busy = true ∧
    ∀ off ∈ ([0x04, 0x2C, 0xC0, 0xE8, 0x30, 0x3C, 0x74, 0x7C, 0x98, 0x9C, 0xB8, 0xBC, 0xEC, 0xFC] : List Offset),
      off.toNat % 4 = 0 ∧ { pendingConv with events := [.write 32 off 1] }.events = .write 32 off 1 :: [] ∧
      (off.toNat = 0x004 ∨ off.toNat = 0x02C ∨ (0x0C0 ≤ off.toNat ∧ off.toNat ≤ 0x0E8) ∨
        (0x030 ≤ off.toNat ∧ off.toNat ≤ 0x03C) ∨ (0x074 ≤ off.toNat ∧ off.toNat ≤ 0x07C) ∨
        (0x098 ≤ off.toNat ∧ off.toNat ≤ 0x09C) ∨ (0x0B8 ≤ off.toNat ∧ off.toNat ≤ 0x0BC) ∨
        (0x0EC ≤ off.toNat ∧ off.toNat ≤ 0x0FC)) := by decide

theorem witness_IdleReadReturnsCurrentValue :
    messageE1.hostFault = false ∧ messageE1.status.busy = false ∧ (0x0C : Offset).toNat % 4 = 0 ∧
    { messageE1 with events := [.read 32 0x0C] }.events = .read 32 0x0C :: [] := by decide

/-- STATUS; CODE_0 in CONV's write set; CALL_LEN outside it; CALL_LEN under a reserved opcode. -/
theorem witness_BusyReadAnswers :
    pendingConv.hostFault = false ∧ pendingConv.status.busy = true ∧ pendingConv.pend = some 5 ∧ (0x04 : Offset).toNat % 4 = 0 ∧
    { pendingConv with events := [.read 32 0x04] }.events = .read 32 0x04 :: [] ∧ regAt 0x04 = .status ∧
    decode ((5 : Opcode).setWidth 32) = .ok .conv ∧ regAt 0x80 = .code 0 ∧ regAt 0x94 = .code 5 ∧
    regAt 0x08 ≠ .status ∧ (∀ w, regAt 0x08 ≠ .code w) ∧ (∀ i, decode ((0xFF : Opcode).setWidth 32) ≠ .ok i) :=
  ⟨rfl, rfl, rfl, rfl, rfl, rfl, rfl, rfl, rfl, by decide, (fun _ h => Reg.noConfusion h), fun _ h => nomatch h⟩

/-- A write, the reset input and a completion step that each change a register. -/
theorem witness_RegistersChangeOnlyByWriteResetOrCompletion :
    (step { State.reset with events := [.write 32 0x1C 7] } = .next { State.reset with power := 7 } ∧
      Reg.read { State.reset with power := 7 } .power ≠ Reg.read State.reset .power) ∧
    (step { State.reset with power := 7, events := [.reset] } = .next State.reset ∧
      Reg.read State.reset .power ≠ Reg.read { State.reset with power := 7 } .power) ∧
    (step (acceptCommand State.reset 0) = .next { State.reset with status := ⟨false, true, .illegal⟩ } ∧
      Reg.read { State.reset with status := ⟨false, true, .illegal⟩ } .status ≠
        Reg.read (acceptCommand State.reset 0) .status) :=
  ⟨⟨rfl, by decide⟩, ⟨rfl, by decide⟩, ⟨rfl, by decide⟩⟩

/-- Both ends of the window, and the addresses on either side of it. -/
theorem witness_BusReachesTheWindowOnly :
    ((0x00 : Nat) < 0x100 ∧ (0x4000 : Nat) = 0x4000 + 0x00) ∧ ((0xFF : Nat) < 0x100 ∧ (0x40FF : Nat) = 0x4000 + 0xFF) ∧
    (0x3FFF : Nat) < 0x4000 ∧ (0x4000 + 0x100 : Nat) ≤ 0x4100 := by decide

/-- The first and the last word of each buffer, a word's four bytes, and the edges of each unmapped range. -/
theorem witness_RegisterMapOffsets :
    ((12 : Nat) ≤ 12 ∧ (0x70 : Offset).toNat = 0x40 + 4 * 12 ∧ (0x40 : Offset).toNat = 0x40 + 4 * 0) ∧
    ((5 : Nat) ≤ 5 ∧ (0x94 : Offset).toNat = 0x80 + 4 * 5 ∧ (0xB4 : Offset).toNat = 0xA0 + 4 * 5) ∧
    ((10 : Nat) ≤ 10 ∧ (0xE8 : Offset).toNat = 0xC0 + 4 * 10) ∧ (0x23 : Offset).toNat / 4 = (0x20 : Offset).toNat / 4 ∧
    regAt (Reg.payload 12).offset = .payload 12 ∧ regAt (Reg.code 5).offset = .code 5 ∧ regAt (Reg.ilv 5).offset = .ilv 5 ∧
    regAt (Reg.sym 10).offset = .sym 10 ∧
    (∀ off ∈ ([0x30, 0x3C, 0x74, 0x7C, 0x98, 0x9C, 0xB8, 0xBC, 0xEC, 0xFF] : List Offset), regAt off = .unmapped) ∧
    (∀ off ∈ ([0x2F, 0x40, 0x73, 0x80, 0x97, 0xA0, 0xB7, 0xC0, 0xEB] : List Offset), regAt off ≠ .unmapped) := by decide

/-- CHR_OUT at its largest value, byte 3 of LOC, and the last existing cell of each buffer, read through its word. -/
theorem witness_CellsStandInTheirRegisters :
    Reg.read { State.reset with chrOut := 36 } .chrOut = 36 ∧ ((0x1B : Offset).toNat % 4 = 3 ∧ windowByte messageE1 0x1B = 0x33) ∧
    callChar messageE1 4 = (Reg.read messageE1 .callB).extractLsb' 0 8 ∧
    payloadCell (1 <<< 392) 49 = (wordAt (1 <<< 392 : PayloadBuf) 12).extractLsb' 8 8 ∧
    (1 <<< 161 : BitBuf).getLsbD 161 = (wordAt (1 <<< 161 : BitBuf) 5).getLsbD 1 ∧
    symCell (3 <<< 322) 161 = (wordAt (3 <<< 322 : SymBuf) 10).extractLsb' 2 2 := by decide +kernel

theorem witness_ResetLeavesEveryRegisterZero :
    { pendingConv with events := [.reset, .coreTurn] }.events = .reset :: [.coreTurn] := rfl

/-- The invariant holds with a command pending, and of the state its completion leaves. -/
theorem witness_InvKeptByEveryStep :
    pendingConv.Inv ∧ step pendingConv = .next (after .conv pendingConv) :=
  ⟨⟨rfl, by decide, fun _ => rfl, fun _ h => by cases h; rfl, by decide, .inl rfl, by decide⟩,
    show exec .conv pendingConv = _ from exec_after .conv pendingConv⟩

/-- A command that ends in an error, and a reserved opcode. -/
theorem witness_ErrorChangesOnlyStatusAndPend :
    exec .srcCallsign State.reset = .next (after .srcCallsign State.reset) ∧
    (after .srcCallsign State.reset).status.err ≠ .none ∧
    completionStep 0x0A State.reset = .next (complete State.reset .illegal) ∧
    (complete State.reset .illegal).status.err ≠ .none :=
  ⟨exec_after _ _, by decide +kernel, rfl, by decide⟩

theorem witness_CommandFrame :
    (∀ i, exec i messageE1 = .next (after i messageE1)) ∧ Reg.callLen ≠ .status ∧ Reg.callLen ≠ .csCode ∧
    regAt 0x08 = .callLen := ⟨fun i => exec_after i _, by decide, by decide, rfl⟩

/-- Two states that differ elsewhere, in CALL[5] past the text and in LOC under a wrong length, and agree on the operands. -/
theorem witness_StageCommandsDependOnlyOnOperands :
    let s := { messageE1 with locLen := 3 }
    let s' := { messageE1 with callB := 0xFF41, locLen := 3, loc := 0, sr := 1 }
    (messageE1.callLen = s'.callLen ∧ ∀ k < 6, k < messageE1.callLen.toNat → callChar messageE1 k = callChar s' k) ∧
    (s.locLen = s'.locLen ∧ s.locLen.toNat ≠ 4 ∧ s.power = s'.power) ∧
    (messageE1.locLen.toNat = 4 ∧ ∀ k < 4, locChar messageE1 k = locChar { messageE1 with sr := 1 } k) ∧
    s.csCode = s'.csCode ∧ s.lpCode = s'.lpCode ∧ s.payload = s'.payload ∧ s.code = s'.code ∧ s.ilv = s'.ilv ∧
    s.chrIn = s'.chrIn := by decide +kernel

theorem witness_PendingCommandAlwaysCompletes :
    pendingConv.hostFault = false ∧ pendingConv.pend ≠ none ∧
    (∀ e ∈ [hostR .status, hostR (.code 0), .coreTurn, .reset], e.harmless = true) ∧
    .reset ∉ [hostR .status, hostR (.code 0), .coreTurn] := by decide

/-- The ends of each class of 40_char_encoder.md R110, and the codes on either side. -/
theorem witness_ChrAlnumResult :
    ∀ p ∈ ([(0x30, 0), (0x39, 9), (0x41, 10), (0x5A, 35), (0x20, 36), (0x2F, 0), (0x3A, 0), (0x40, 0), (0x5B, 0), (0x7A, 0),
        (0xFF, 0)] : List (Nat × Nat)),
      (0x30 ≤ p.1 ∧ p.1 ≤ 0x39 ∧ p.2 + 0x30 = p.1) ∨ (0x41 ≤ p.1 ∧ p.1 ≤ 0x5A ∧ p.2 + 0x41 = p.1 + 10) ∨
        (p.1 = 0x20 ∧ p.2 = 36) ∨
        (p.1 ≠ 0x20 ∧ (p.1 < 0x30 ∨ 0x39 < p.1) ∧ (p.1 < 0x41 ∨ 0x5A < p.1) ∧ p.2 = 0) := by decide

theorem witness_ChrAlphaResult :
    ∀ p ∈ ([(0x41, 0), (0x5A, 25), (0x20, 26), (0x35, 0), (0x40, 0), (0x5B, 0), (0x7A, 0), (0xFF, 0)] : List (Nat × Nat)),
      (0x41 ≤ p.1 ∧ p.1 ≤ 0x5A ∧ p.2 + 0x41 = p.1) ∨ (p.1 = 0x20 ∧ p.2 = 26) ∨
        (p.1 ≠ 0x20 ∧ (p.1 < 0x41 ∨ 0x5A < p.1) ∧ p.2 = 0) := by decide

/-- "AB1" (not realigned, suffix SSS, m = 0) and "K1ABC" (realigned, suffix LLL, m = 3). -/
theorem witness_SrcCallsignEncodesValidCallsign :
    let s := withCall 3 0x00314241 0
    let t : Nat → Byte := fun k => [0x41, 0x42, 0x31, 0x20, 0x20, 0x20].getD k 0
    let s' := withCall 5 0x4241314B 0x0043
    let t' : Nat → Byte := fun k => [0x4B, 0x31, 0x41, 0x42, 0x43, 0x20].getD k 0
    let b' : Nat → Byte := fun k => [0x20, 0x4B, 0x31, 0x41, 0x42, 0x43].getD k 0
    (3 ≤ s.callLen.toNat ∧ s.callLen.toNat ≤ 6 ∧ (∀ k < 6, t k = if k < s.callLen.toNat then upper (callChar s k) else 0x20) ∧
      isDigit (t 2) = true ∧ isLetter (t 0) = true ∧ isLetter (t 1) = true ∧
      ∀ k < 3, if k < 0 then isLetter (t (3 + k)) = true else isSpace (t (3 + k)) = true) ∧
    (3 ≤ s'.callLen.toNat ∧ s'.callLen.toNat ≤ 6 ∧
      (∀ k < 6, t' k = if k < s'.callLen.toNat then upper (callChar s' k) else 0x20) ∧ isDigit (t' 2) = false ∧ b' 0 = 0x20 ∧
      (∀ k < 5, b' (k + 1) = t' k) ∧ isSpace (b' 0) = true ∧ isLetter (b' 1) = true ∧ isDigit (b' 2) = true ∧
      ∀ k < 3, if k < 3 then isLetter (b' (3 + k)) = true else isSpace (b' (3 + k)) = true) := by decide +kernel

/-- Lengths 2 and 7; "ABCDE" fails the prefix; "AB1 C" fails the suffix: no m splits space, letter, space. -/
theorem witness_InvalidCallsignIsRejected :
    let s := withCall 5 0x44434241 0x0045
    let t : Nat → Byte := fun k => [0x41, 0x42, 0x43, 0x44, 0x45, 0x20].getD k 0
    let b : Nat → Byte := fun k => [0x20, 0x41, 0x42, 0x43, 0x44, 0x45].getD k 0
    let s' := withCall 5 0x20314241 0x0043
    let t' : Nat → Byte := fun k => [0x41, 0x42, 0x31, 0x20, 0x43, 0x20].getD k 0
    ((withCall 2 0 0).callLen.toNat < 3 ∧ 6 < (withCall 7 0 0).callLen.toNat) ∧
    ((∀ k < 6, t k = if k < s.callLen.toNat then upper (callChar s k) else 0x20) ∧ isDigit (t 2) = false ∧ b 0 = 0x20 ∧
      (∀ k < 5, b (k + 1) = t k) ∧ isDigit (b 2) = false) ∧
    ((∀ k < 6, t' k = if k < s'.callLen.toNat then upper (callChar s' k) else 0x20) ∧ isDigit (t' 2) = true ∧
      ¬ ∃ m, ∀ k < 3, if k < m then isLetter (t' (3 + k)) = true else isSpace (t' (3 + k)) = true) := by
  refine ⟨by decide, by decide +kernel, by decide +kernel, by decide, ?_⟩
  rintro ⟨m, h⟩
  have h0 := h 0 (by omega)
  have h1 := h 1 (by omega)
  rcases m with _ | _ | m
  · simp [isSpace] at h1
  · simp [isLetter] at h0
  · simp [isLetter] at h0

theorem witness_CallsignLengthIsChecked :
    (withCall 2 0x4244 0).callLen.toNat < 3 ∧ 6 < (withCall 7 0x58585858 0x5858).callLen.toNat := by decide

theorem witness_CallsignCodeFits28Bits :
    exec .srcCallsign messageE1 = .next (after .srcCallsign messageE1) ∧
    (after .srcCallsign messageE1).status.err = .none := ⟨exec_after _ _, by decide +kernel⟩

/-- "db2la" and "DB2LA" (V-SC8); the edges of the lower-case range, and the successful ends of both. -/
theorem witness_CallsignCaseIsFolded :
    (withCall 5 0x4C324244 0x0041).callLen = (withCall 5 0x6C326264 0x0061).callLen ∧
    (∀ k < 6, (callChar (withCall 5 0x4C324244 0x0041) k).toNat =
      if 0x61 ≤ (callChar (withCall 5 0x6C326264 0x0061) k).toNat ∧ (callChar (withCall 5 0x6C326264 0x0061) k).toNat ≤ 0x7A
      then (callChar (withCall 5 0x6C326264 0x0061) k).toNat - 0x20 else (callChar (withCall 5 0x6C326264 0x0061) k).toNat) ∧
    upper 0x60 = 0x60 ∧ upper 0x61 = 0x41 ∧ upper 0x7A = 0x5A ∧ upper 0x7B = 0x7B ∧
    (after .srcCallsign (withCall 5 0x6C326264 0x0061)).csCode = 0x059F5895 := by decide +kernel

/-- "jo43" and "JO43" (V-LP11), with the callsigns "db2la" and "DB2LA"; the successful ends of both commands. -/
theorem witness_LocatorAndMessageCaseIsFolded :
    let s := withMessage 5 0x6C326264 0x0061 4 0x33346F6A 30
    messageE1.locLen = s.locLen ∧ messageE1.power = s.power ∧ messageE1.callLen = s.callLen ∧
    (∀ k < 4, (locChar messageE1 k).toNat =
      if 0x61 ≤ (locChar s k).toNat ∧ (locChar s k).toNat ≤ 0x7A then (locChar s k).toNat - 0x20 else (locChar s k).toNat) ∧
    (∀ k < 6, (callChar messageE1 k).toNat =
      if 0x61 ≤ (callChar s k).toNat ∧ (callChar s k).toNat ≤ 0x7A then (callChar s k).toNat - 0x20
      else (callChar s k).toNat) ∧
    (after .srcLocpwr s).lpCode = 0x001E29DE ∧ (after .encode s).status.err = .none := by decide +kernel

/-- "K1ABCD". -/
theorem witness_SixthCharacterIsDropped :
    (withCall 6 0x4241314B 0x4443).callLen.toNat = 6 ∧ isDigit (upper (callChar (withCall 6 0x4241314B 0x4443) 2)) = false := by
  decide +kernel

/-- "AR09" with power 60 and "RA90" with power 0, the two extremes. -/
theorem witness_SrcLocpwrEncodesValidOperands :
    ∀ s ∈ [withMessage 0 0 0 4 0x39305241 60, withMessage 0 0 0 4 0x30394152 0],
      s.locLen.toNat = 4 ∧ (∀ k < 2, 0x41 ≤ (upper (locChar s k)).toNat ∧ (upper (locChar s k)).toNat ≤ 0x52) ∧
      (∀ k < 2, 0x30 ≤ (upper (locChar s (k + 2))).toNat ∧ (upper (locChar s (k + 2))).toNat ≤ 0x39) ∧ s.power.toNat ≤ 60 := by
  decide +kernel

/-- "ZZ43" with power 61; "JO4" of length 3; "JO43" with power 61: with the callsign "DB2LA". -/
theorem witness_InvalidLocatorOrPowerIsRejected :
    ¬ (upper (locChar (withMessage 5 0x4C324244 0x0041 4 0x33345A5A 61) 0)).toNat ≤ 0x52 ∧
    (withMessage 5 0x4C324244 0x0041 3 0x00344F4A 30).locLen.toNat ≠ 4 ∧
    (∀ k < 2, 0x41 ≤ (upper (locChar { messageE1 with power := 61 } k)).toNat ∧
      (upper (locChar { messageE1 with power := 61 } k)).toNat ≤ 0x52) ∧
    (∀ k < 2, 0x30 ≤ (upper (locChar { messageE1 with power := 61 } (k + 2))).toNat ∧
      (upper (locChar { messageE1 with power := 61 } (k + 2))).toNat ≤ 0x39) ∧
    { messageE1 with power := 61 }.locLen.toNat = 4 ∧ 60 < { messageE1 with power := 61 }.power.toNat ∧
    encodeCallsign messageE1.callLen.toNat (callChar messageE1) = .ok 94328981 := by
  refine ⟨?_, ?_, ?_, ?_, ?_, ?_, rfl⟩ <;> decide +kernel

theorem witness_LocatorPowerCodeBounds :
    exec .srcLocpwr messageE1 = .next (after .srcLocpwr messageE1) ∧ (after .srcLocpwr messageE1).status.err = .none :=
  ⟨exec_after _ _, by decide +kernel⟩

/-- The largest codes in range. -/
theorem witness_PackConcatenatesInRangeCodes :
    let s := { State.reset with csCode := 0x0FFFFFFF, lpCode := 0x003FFFFF }
    s.csCode.toNat < 2 ^ 28 ∧ s.lpCode.toNat < 2 ^ 22 ∧ exec .pack s = .next (after .pack s) :=
  ⟨by decide, by decide, exec_after _ _⟩

/-- A payload with only PAYLOAD[49] = 1: SR is 0 after step 0 and u[49] stands in bit 31 after step 80. -/
theorem witness_ConvWritesCodeBits :
    (∀ i < 50, payloadCell (1 <<< 392) i = 0 ∨ payloadCell (1 <<< 392) i = 1) ∧
    (∀ j < 32, (0 : Word).getLsbD j =
      (decide (j ≤ 0) && decide (0 - j < 50) && decide (payloadCell (1 <<< 392) (0 - j) = 1))) ∧
    (∀ j < 32, (0x80000000 : Word).getLsbD j =
      (decide (j ≤ 80) && decide (80 - j < 50) && decide (payloadCell (1 <<< 392) (80 - j) = 1))) := by decide +kernel

/-- Cell 0 holding 2 and cell 49 holding 0xFF. -/
theorem witness_ConvRejectsNonBinaryPayload :
    (payloadCell 2 0 ≠ 0 ∧ payloadCell 2 0 ≠ 1) ∧
    (payloadCell (0xFF <<< 392) 49 ≠ 0 ∧ payloadCell (0xFF <<< 392) 49 ≠ 1) := by decide +kernel

theorem witness_ConvIsLinear :
    (∀ i < 50, payloadCell 0x0101 i = 0 ∨ payloadCell 0x0101 i = 1) ∧
    (∀ i < 50, payloadCell 0x0100 i = 0 ∨ payloadCell 0x0100 i = 1) ∧ (0x0001 : PayloadBuf) = 0x0101 ^^^ 0x0100 := by
  decide +kernel

/-- The first and the last cell. -/
theorem witness_ConvImpulseShowsThePolynomials :
    (∀ i < 50, payloadCell 1 i = if i = 0 then 1 else 0) ∧ (∀ i < 50, payloadCell (1 <<< 392) i = if i = 49 then 1 else 0) := by
  decide +kernel

/-- CODE with only CODE[161] = 1. -/
theorem witness_InterleaveKeepsOneBits :
    let s := { State.reset with code := 1 <<< 161 }
    exec .interleave s = .next (after .interleave s) ∧ ∀ q < 162, s.code.getLsbD q = decide (q = 161) :=
  ⟨exec_after _ _, by decide +kernel⟩

/-- The message of V-E1; SR after step 0 holds PAYLOAD[0] = 0. -/
theorem witness_EncodeWritesEveryStage :
    encodeCallsign messageE1.callLen.toNat (callChar messageE1) = .ok 94328981 ∧
    encodeLocatorPower messageE1.locLen.toNat (locChar messageE1) messageE1.power.toNat = .ok 1976798 ∧
    ∀ j < 32, (0 : Word).getLsbD j = (decide (j ≤ 0) && decide (0 - j < 50) &&
      decide (payloadCell (after .encode messageE1).payload (0 - j) = 1)) := ⟨rfl, rfl, by decide +kernel⟩

theorem witness_EncodeIsTheStagePipeline :
    let t1 := after .srcCallsign messageE1
    let t2 := after .srcLocpwr t1
    exec .srcCallsign messageE1 = .next t1 ∧ t1.status.err = .none ∧ exec .srcLocpwr t1 = .next t2 ∧ t2.status.err = .none :=
  ⟨exec_after _ _, by decide +kernel, exec_after _ _, by decide +kernel⟩

/-- A bad callsign; then a good callsign with a bad locator, and with a bad power. -/
theorem witness_EncodeReportsTheFirstError :
    (exec .srcCallsign State.reset = .next (after .srcCallsign State.reset) ∧ (after .srcCallsign State.reset).status.err ≠ .none) ∧
    ∀ s ∈ [{ messageE1 with loc := 0x33345A5A }, { messageE1 with power := 61 }],
      exec .srcCallsign s = .next (after .srcCallsign s) ∧ (after .srcCallsign s).status.err = .none ∧
      exec .srcLocpwr s = .next (after .srcLocpwr s) ∧ (after .srcLocpwr s).status.err ≠ .none := by
  refine ⟨⟨exec_after _ _, by decide +kernel⟩, fun s h => ⟨exec_after _ _, ?_, exec_after _ _, ?_⟩⟩
  · revert s; decide +kernel
  · revert s; decide +kernel

theorem witness_EncodeNeverReportsConvError :
    exec .encode { messageE1 with payload := 2 } = .next (after .encode { messageE1 with payload := 2 }) := exec_after _ _

/-- "DB2LA" with rubbish in CALL[5] and in every result register. -/
theorem witness_EncodeDependsOnlyOnTheMessage :
    let s' := { messageE1 with callB := 0xFF41, payload := 2, code := 3, sr := 4, csCode := 5 }
    messageE1.callLen = s'.callLen ∧ (∀ k < 6, k < messageE1.callLen.toNat → callChar messageE1 k = callChar s' k) ∧
    messageE1.locLen = s'.locLen ∧ (∀ k < 4, locChar messageE1 k = locChar s' k) ∧ messageE1.power = s'.power := by decide +kernel

end Sys2Proof.Tests
end

section
/-! PROOFS. The family of 10_state.md: the register map, STATUS, HOSTFAULT, and the invariant that every step keeps. -/

namespace Sys2Proof.Proofs

open Sys2Proof.Machine Sys2Proof.Laws

/-! ### The register map -/

theorem regWord_payload : ∀ w ≤ 12, regWord (16 + w) = .payload w := by decide
theorem regWord_code : ∀ w ≤ 5, regWord (32 + w) = .code w := by decide
theorem regWord_ilv : ∀ w ≤ 5, regWord (40 + w) = .ilv w := by decide
theorem regWord_sym : ∀ w ≤ 10, regWord (48 + w) = .sym w := by decide

theorem regWord_eq_unmapped_iff : ∀ w < 64, regWord w = .unmapped ↔
    (12 ≤ w ∧ w < 16) ∨ (29 ≤ w ∧ w < 32) ∨ (38 ≤ w ∧ w < 40) ∨ (46 ≤ w ∧ w < 48) ∨ 59 ≤ w := by decide

theorem regAt_of_toNat_eq {off : Offset} {w : Nat} (h : off.toNat = 4 * w) : regAt off = regWord w := by
  rw [regAt, h, Nat.mul_div_cancel_left _ (by decide)]

theorem regAt_payload {off : Offset} {w : Nat} (hw : w ≤ 12) (h : off.toNat = 0x40 + 4 * w) : regAt off = .payload w :=
  (regAt_of_toNat_eq (by omega)).trans (regWord_payload w hw)

theorem regAt_code {off : Offset} {w : Nat} (hw : w ≤ 5) (h : off.toNat = 0x80 + 4 * w) : regAt off = .code w :=
  (regAt_of_toNat_eq (by omega)).trans (regWord_code w hw)

theorem regAt_ilv {off : Offset} {w : Nat} (hw : w ≤ 5) (h : off.toNat = 0xA0 + 4 * w) : regAt off = .ilv w :=
  (regAt_of_toNat_eq (by omega)).trans (regWord_ilv w hw)

theorem regAt_sym {off : Offset} {w : Nat} (hw : w ≤ 10) (h : off.toNat = 0xC0 + 4 * w) : regAt off = .sym w :=
  (regAt_of_toNat_eq (by omega)).trans (regWord_sym w hw)

/-- `Reg.offset` gives the offset back, for every register of the map (10_state.md R23). -/
theorem regAt_offset {r : Reg} (h : regInRange r = true) (hu : r ≠ .unmapped) : regAt r.offset = r := by
  have toNat_ofNat : ∀ n < 256, (BitVec.ofNat 8 n).toNat = n := fun n hn => by
    rw [BitVec.toNat_ofNat, Nat.mod_eq_of_lt hn]
  cases r with
  | payload w =>
    have hw : w ≤ 12 := of_decide_eq_true h
    exact regAt_payload hw (toNat_ofNat _ (by omega))
  | code w =>
    have hw : w ≤ 5 := of_decide_eq_true h
    exact regAt_code hw (toNat_ofNat _ (by omega))
  | ilv w =>
    have hw : w ≤ 5 := of_decide_eq_true h
    exact regAt_ilv hw (toNat_ofNat _ (by omega))
  | sym w =>
    have hw : w ≤ 10 := of_decide_eq_true h
    exact regAt_sym hw (toNat_ofNat _ (by omega))
  | unmapped => exact absurd rfl hu
  | _ => decide

theorem regAt_eq_unmapped_iff (off : Offset) : regAt off = .unmapped ↔
    (0x030 ≤ off.toNat ∧ off.toNat < 0x040) ∨ (0x074 ≤ off.toNat ∧ off.toNat < 0x080) ∨
    (0x098 ≤ off.toNat ∧ off.toNat < 0x0A0) ∨ (0x0B8 ≤ off.toNat ∧ off.toNat < 0x0C0) ∨ 0x0EC ≤ off.toNat := by
  have hlt := off.isLt
  rw [regAt, regWord_eq_unmapped_iff _ (by omega)]
  omega

/-- Settles O20: each buffer is a range of words, and the words between the ranges are the unmapped ones. -/
theorem registerMapOffsets : Obligations.RegisterMapOffsets := by
  unfold Obligations.RegisterMapOffsets
  refine ⟨by decide, fun off w => ⟨regAt_payload, regAt_code, regAt_ilv, regAt_sym⟩, ?_, ?_, regAt_eq_unmapped_iff⟩
  · intro off off' h
    rw [regAt, regAt, h]
  · intro r hr
    refine regAt_offset ?_ (by rintro rfl; exact hr)
    cases r with
    | payload w | code w | ilv w | sym w => exact decide_eq_true hr
    | _ => rfl

/-! ### STATUS -/

theorem status_word_busy (st : Status) : st.word.getLsbD 0 = st.busy := by
  simp [-BitVec.getLsbD_eq_getElem, Status.word, BitVec.getLsbD_ofBool]

theorem status_word_done (st : Status) : st.word.getLsbD 1 = st.done := by
  simp [-BitVec.getLsbD_eq_getElem, Status.word, BitVec.getLsbD_ofBool]

/-- Bits [7:4] of STATUS are ERR: BUSY and DONE stand below them (10_state.md R25). -/
theorem status_word_err (st : Status) : st.word.extractLsb' 4 4 = st.err.code := by
  apply BitVec.eq_of_getLsbD_eq
  intro k hk
  have hcode : k < 32 := by omega
  have hword : 4 + k < 32 := by omega
  simp [-BitVec.getLsbD_eq_getElem, Status.word, BitVec.getLsbD_ofBool, hk, hcode, hword]

/-- Settles O22: STATUS as the host reads it, field by field. -/
theorem statusFieldsRead : Obligations.StatusFieldsRead := by
  unfold Obligations.StatusFieldsRead
  intro s
  refine ⟨status_word_busy s.status, status_word_done s.status, (status_word_err s.status).trans ?_⟩
  cases s.status.err <;> rfl

/-! ### One step, by the event it runs -/

/-- A step that answers has run one event, on the state with that event taken; in a run with HOSTFAULT = 1 only reset. -/
theorem step_next {s t : State} (h : step s = .next t) :
    ∃ e rest, (s.hostFault = false ∨ e = .reset) ∧ runEvent e (takeEvent s rest) = .next t := by
  rcases step_takes s with ⟨hnil, hstep⟩ | ⟨e, rest, -, hstep⟩
  · have htake : takeEvent s [] = s := by rw [takeEvent, ← hnil]
    exact ⟨.coreTurn, [], by rw [htake]; exact guardedEvent_next _ _ _ (hstep ▸ h)⟩
  · exact ⟨e, rest, guardedEvent_next _ _ _ (hstep ▸ h)⟩

/-- Reset is answered in every state, HOSTFAULT = 1 included (70_reset_and_hazards.md R240). -/
theorem step_reset {s : State} {rest : List HostEvent} (h : s.events = .reset :: rest) :
    step s = .next (applyReset (takeEvent s rest)) := by
  simp [step, nextStep, h, guardedEvent, runEvent]

/-! ### HOSTFAULT -/

theorem final_iff (s : State) : s.final = true ↔ s.events = [] ∧ s.pend = none ∧ s.hostFault = false := by
  simp [State.final, and_assoc]

/-- No step clears HOSTFAULT: the only one that answers is reset, and reset keeps it (10_state.md R43). -/
theorem step_keeps_hostFault {s t : State} (hf : s.hostFault = true) (h : step s = .next t) : t.hostFault = true := by
  obtain ⟨e, rest, hguard, hrun⟩ := step_next h
  have he : e = .reset := hguard.resolve_left (by simp [hf])
  subst he
  obtain rfl : applyReset (takeEvent s rest) = t := by injection hrun
  exact hf

/-- Settles O11: reset is the one event that still runs with HOSTFAULT = 1, and it keeps the mark. -/
theorem hostFaultStaysSet : Obligations.HostFaultStaysSet := by
  unfold Obligations.HostFaultStaysSet
  refine ⟨rfl, fun s t => step_keeps_hostFault, fun s rest hf he => ⟨_, step_reset he, hf⟩, fun s hf => ?_, final_iff⟩
  rw [← Bool.not_eq_true, final_iff]
  rintro ⟨-, -, hclear⟩
  exact absurd hf (by simp [hclear])

/-! ### The invariant: what reset, a host access and an acceptance leave -/

/-- The invariant speaks of CMD, STATUS, PEND, CHR_OUT, SYM and SR only. -/
theorem inv_of_fields_eq {s t : State} (h : s.Inv) (hcmd : t.cmdOp = s.cmdOp) (hstatus : t.status = s.status)
    (hpend : t.pend = s.pend) (hchr : t.chrOut = s.chrOut) (hsym : t.sym = s.sym) (hsr : t.sr = s.sr) : t.Inv where
  busy_iff_pend := by rw [hstatus, hpend]; exact h.busy_iff_pend
  not_busy_and_done := by rw [hstatus]; exact h.not_busy_and_done
  err_none_unless_done := by rw [hstatus]; exact h.err_none_unless_done
  pend_is_cmd := by rw [hpend, hcmd]; exact h.pend_is_cmd
  chrOut_le := by rw [hchr]; exact h.chrOut_le
  sym_carries_sync := by rw [hsym]; exact h.sym_carries_sync
  sr_flushed := by rw [hsr]; exact h.sr_flushed

/-- Settles O24: at reset nothing is pending and the result registers are 0. -/
theorem invHoldsAtReset : Obligations.InvHoldsAtReset := by
  unfold Obligations.InvHoldsAtReset
  exact
    { busy_iff_pend := rfl
      not_busy_and_done := by rintro ⟨hbusy, -⟩; cases hbusy
      err_none_unless_done := fun _ => rfl
      pend_is_cmd := by rintro op hop; cases hop
      chrOut_le := by decide
      sym_carries_sync := .inl rfl
      sr_flushed := fun j _ => BitVec.getLsbD_zero }

theorem inv_takeEvent {s : State} (h : s.Inv) (rest : List HostEvent) : (takeEvent s rest).Inv :=
  inv_of_fields_eq h rfl rfl rfl rfl rfl rfl

theorem inv_applyReset (s : State) : (applyReset s).Inv :=
  inv_of_fields_eq (s := State.reset) invHoldsAtReset rfl rfl rfl rfl rfl rfl

theorem inv_acceptCommand {s : State} (h : s.Inv) (v : Word) : (acceptCommand s v).Inv where
  busy_iff_pend := rfl
  not_busy_and_done := by rintro ⟨-, hdone⟩; cases hdone
  err_none_unless_done := fun _ => rfl
  pend_is_cmd := by rintro op hop; injection hop
  chrOut_le := h.chrOut_le
  sym_carries_sync := h.sym_carries_sync
  sr_flushed := h.sr_flushed

theorem inv_store {s : State} (h : s.Inv) (v : Word) (r : Reg) : (r.store s v).Inv := by
  by_cases hr : r = .cmd
  · subst hr
    exact inv_acceptCommand h v
  · obtain ⟨hstatus, hpend, hcmd⟩ := store_lifecycle s v r hr
    exact inv_of_fields_eq h hcmd hstatus hpend (store_chrOut s v r) (store_sym s v r) (store_sr s v r)

theorem inv_hostRead {s : State} (h : s.Inv) (bits : Nat) (off : Offset) : (hostRead bits off s).Inv := by
  obtain ⟨hf, rd, dr, hread⟩ := hostRead_registers bits off s
  rw [hread]
  exact inv_of_fields_eq h rfl rfl rfl rfl rfl rfl

theorem inv_hostWrite {s : State} (h : s.Inv) (bits : Nat) (off : Offset) (v : Word) : (hostWrite bits off v s).Inv := by
  rcases hostWrite_cases bits off v s with ⟨-, hwrite⟩ | ⟨-, -, hwrite⟩
  · rw [hwrite]
    exact inv_of_fields_eq h rfl rfl rfl rfl rfl rfl
  · rw [hwrite]
    exact inv_store h v _

/-! ### The invariant: what a completion step leaves -/

/-- Bit 0 of an assembled symbol is the sync bit (44_frame_assembler.md R191). -/
theorem symCell_assembleSymbols_mod_two (ilv : BitBuf) (i : Nat) (hi : i < 162) :
    (symCell (assembleSymbols ilv) i).toNat % 2 = syncAt i := by
  have hsync := syncAt_le i
  rw [symCell_assembleSymbols ilv i hi, BitVec.toNat_ofNat]
  omega

/-- The 31 tail bits push all of the payload but its last cell out of SR[30:0] (42_conv_encoder.md R168). -/
theorem convSteps_sr_flushed (p : PayloadBuf) (j : Nat) (hj : j < 31) :
    (convSteps (paddedBit p) Config.paddedLength).1.getLsbD j = false := by
  have htail : ¬ 81 - 1 - j < 50 := by omega
  rw [convSteps_sr _ _ _ (by omega)]
  simp [paddedBit, htail]

/-- What a successful `conv_encode` returns. -/
theorem convEncode_ok {p : PayloadBuf} {r : Word × BitBuf} (h : convEncode p = .ok r) :
    r = convSteps (paddedBit p) Config.paddedLength := by
  unfold convEncode at h
  split at h
  · injection h with h; exact h.symm
  · cases h

/-- SYM and SR of an encoded message are those of the last stages (45_encode_top.md R200). -/
theorem encodeMessage_ok {n : Nat} {call : Nat → Byte} {m : Nat} {loc : Nat → Byte} {p : Nat} {r : EncodedMessage}
    (h : encodeMessage n call m loc p = .ok r) :
    r.sym = assembleSymbols r.ilv ∧ r.sr = (convSteps (paddedBit r.pl) Config.paddedLength).1 := by
  simp only [encodeMessage, convEncode_packPayload] at h
  split at h
  · cases h
  · split at h
    · cases h
    · injection h with h
      subst h
      exact ⟨rfl, rfl⟩

/-- Where the values of CHR_OUT, SYM and SR come from when the state `t` follows a command that ran in `s`. -/
structure ResultsFrom (s t : State) : Prop where
  chrOut : t.chrOut = s.chrOut ∨ t.chrOut.toNat ≤ 36
  sym : t.sym = s.sym ∨ ∃ ilv, t.sym = assembleSymbols ilv
  sr : t.sr = s.sr ∨ ∃ p, t.sr = (convSteps (paddedBit p) Config.paddedLength).1

theorem resultsFrom_of_eq {s t : State} (hchr : t.chrOut = s.chrOut) (hsym : t.sym = s.sym) (hsr : t.sr = s.sr) :
    ResultsFrom s t := ⟨.inl hchr, .inl hsym, .inl hsr⟩

theorem ofNat_six_toNat_le {n : Nat} (h : n ≤ 36) : (BitVec.ofNat 6 n).toNat ≤ 36 := by
  rw [BitVec.toNat_ofNat]
  omega

/-- Every command ends in a completion whose CHR_OUT, SYM and SR are old or computed. -/
theorem exec_resultsFrom (i : Instr) (s : State) : ∃ u e, exec i s = .next (complete u e) ∧ ResultsFrom s u := by
  have unchanged := resultsFrom_of_eq (s := s) (t := s) rfl rfl rfl
  cases i with
  | encode =>
    simp only [exec, execEncode]
    cases h : encodeMessage (callLength s) (callChar s) (locLength s) (locChar s) (powerValue s) with
    | error e => exact ⟨s, e, rfl, unchanged⟩
    | ok r =>
      obtain ⟨hsym, hsr⟩ := encodeMessage_ok h
      exact ⟨_, .none, rfl, .inl rfl, .inr ⟨r.ilv, hsym⟩, .inr ⟨r.pl, hsr⟩⟩
  | srcCallsign =>
    simp only [exec, execSrcCallsign]
    cases encodeCallsign (callLength s) (callChar s) with
    | error e => exact ⟨s, e, rfl, unchanged⟩
    | ok r => exact ⟨_, .none, rfl, resultsFrom_of_eq rfl rfl rfl⟩
  | srcLocpwr =>
    simp only [exec, execSrcLocpwr]
    cases encodeLocatorPower (locLength s) (locChar s) (powerValue s) with
    | error e => exact ⟨s, e, rfl, unchanged⟩
    | ok r => exact ⟨_, .none, rfl, resultsFrom_of_eq rfl rfl rfl⟩
  | conv =>
    simp only [exec, execConv]
    cases h : convEncode s.payload with
    | error e => exact ⟨s, e, rfl, unchanged⟩
    | ok r => exact ⟨_, .none, rfl, .inl rfl, .inl rfl, .inr ⟨s.payload, by rw [convEncode_ok h]⟩⟩
  | pack | interleave => exact ⟨_, .none, rfl, resultsFrom_of_eq rfl rfl rfl⟩
  | assemble => exact ⟨_, .none, rfl, .inl rfl, .inr ⟨s.ilv, rfl⟩, .inl rfl⟩
  | chrAlnum => exact ⟨_, .none, rfl, .inr (ofNat_six_toNat_le (encodeAlnum_le _)), .inl rfl, .inl rfl⟩
  | chrAlpha =>
    have hle : encodeAlpha s.chrIn ≤ 36 := (encodeAlpha_le _).trans (by decide)
    exact ⟨_, .none, rfl, .inr (ofNat_six_toNat_le hle), .inl rfl, .inl rfl⟩

/-- A completion always leaves STATUS and PEND in order, so only the result registers are at stake. -/
theorem inv_complete {s u : State} (h : s.Inv) (hu : ResultsFrom s u) (e : ErrCode) : (complete u e).Inv where
  busy_iff_pend := rfl
  not_busy_and_done := by rintro ⟨hbusy, -⟩; cases hbusy
  err_none_unless_done := by intro hdone; cases hdone
  pend_is_cmd := by rintro op hop; cases hop
  chrOut_le := by
    rcases hu.chrOut with hold | hnew
    · exact hold ▸ h.chrOut_le
    · exact hnew
  sym_carries_sync := by
    rcases hu.sym with hold | ⟨ilv, hnew⟩
    · exact hold ▸ h.sym_carries_sync
    · exact .inr (hnew ▸ symCell_assembleSymbols_mod_two ilv)
  sr_flushed := by
    rcases hu.sr with hold | ⟨p, hnew⟩
    · exact hold ▸ h.sr_flushed
    · exact hnew ▸ convSteps_sr_flushed p

theorem inv_completionStep {s t : State} (h : s.Inv) (op : Opcode) (hrun : completionStep op s = .next t) : t.Inv := by
  unfold completionStep at hrun
  split at hrun
  · rename_i i _
    obtain ⟨u, e, hexec, hu⟩ := exec_resultsFrom i s
    obtain rfl : complete u e = t := by rw [hexec] at hrun; injection hrun
    exact inv_complete h hu e
  · obtain rfl : complete s .illegal = t := by injection hrun
    exact inv_complete h (resultsFrom_of_eq rfl rfl rfl) .illegal

theorem inv_coreStep {s t : State} (h : s.Inv) (hrun : coreStep s = .next t) : t.Inv := by
  unfold coreStep at hrun
  split at hrun
  · obtain rfl : s = t := by injection hrun
    exact h
  · exact inv_completionStep h _ hrun

/-! ### The invariant: every step -/

theorem inv_runEvent {s t : State} (h : s.Inv) (e : HostEvent) (hrun : runEvent e s = .next t) : t.Inv := by
  cases e with
  | read bits off =>
    obtain rfl : hostRead bits off s = t := by injection hrun
    exact inv_hostRead h bits off
  | write bits off v =>
    obtain rfl : hostWrite bits off v s = t := by injection hrun
    exact inv_hostWrite h bits off v
  | reset =>
    obtain rfl : applyReset s = t := by injection hrun
    exact inv_applyReset s
  | coreTurn => exact inv_coreStep h hrun

/-- Settles O25, event by event: a host access leaves the result registers, and a completion step leaves STATUS and PEND in
order and result registers that are old or computed. -/
theorem invKeptByEveryStep : Obligations.InvKeptByEveryStep := by
  unfold Obligations.InvKeptByEveryStep
  intro s t h hstep
  obtain ⟨e, rest, -, hrun⟩ := step_next hstep
  exact inv_runEvent (inv_takeEvent h rest) e hrun

end Sys2Proof.Proofs
end

section
/-! PROOFS. The family of 20_memory.md: host reads and writes, reserved bits, the cells in their registers, the bus window. -/

namespace Sys2Proof.Proofs

open Sys2Proof.Machine Sys2Proof.Laws

/-! ### One step that takes a host access -/

/-- The admission check passes, as the rule words it (20_memory.md R62). -/
theorem admitted_aligned {off : Offset} (h : off.toNat % 4 = 0) : admitted 32 off = true := by
  rw [← Bool.not_eq_false, admitted_eq_false]
  simp [h]

section
variable {s : State} {bits : Nat} {off : Offset} {v : Word} {rest : List HostEvent}

theorem step_read_inadmissible (hf : s.hostFault = false) (hadm : admitted bits off = false)
    (he : s.events = .read bits off :: rest) :
    step s = .next { s with hostFault := true, rdata := none, events := rest } := by
  rw [step_event s _ rest hf he, runEvent, hostRead, hadm]
  rfl

theorem step_write_fault (hf : s.hostFault = false) (hcause : admitted bits off = false ∨ s.status.busy = true)
    (he : s.events = .write bits off v :: rest) :
    step s = .next { s with hostFault := true, events := rest } := by
  rw [step_event s _ rest hf he, runEvent]
  rcases hostWrite_cases bits off v (takeEvent s rest) with ⟨-, hwrite⟩ | ⟨hadm, hidle, -⟩
  · rw [hwrite]
    rfl
  · rcases hcause with hnot | hbusy
    · exact absurd hadm (by simp [hnot])
    · exact absurd hidle (by simp [hbusy])

theorem step_read_idle (hf : s.hostFault = false) (hidle : s.status.busy = false) (hal : off.toNat % 4 = 0)
    (he : s.events = .read 32 off :: rest) :
    step s = .next { s with rdata := some (Reg.read s (regAt off)), events := rest } := by
  rw [step_event s _ rest hf he, runEvent, hostRead, admitted_aligned hal, takeEvent_status, hidle, takeEvent_read]
  rfl

theorem step_write_idle (hf : s.hostFault = false) (hidle : s.status.busy = false) (hal : off.toNat % 4 = 0)
    (he : s.events = .write 32 off v :: rest) :
    step s = .next ((regAt off).store (takeEvent s rest) v) := by
  rw [step_event s _ rest hf he, runEvent, hostWrite, admitted_aligned hal, takeEvent_status, hidle]
  rfl

end

/-- Settles O9: an access that fails the admission check only sets the mark, and a read then returns nothing. -/
theorem inadmissibleAccessIsHostFault : Obligations.InadmissibleAccessIsHostFault := by
  unfold Obligations.InadmissibleAccessIsHostFault
  intro s bits off v rest hf hbad
  have hadm := (admitted_eq_false bits off).mpr hbad
  exact ⟨step_read_inadmissible hf hadm, step_write_fault hf (.inl hadm)⟩

/-- Settles O16: an admitted read while idle only fills `rdata`. -/
theorem idleReadReturnsCurrentValue : Obligations.IdleReadReturnsCurrentValue := by
  unfold Obligations.IdleReadReturnsCurrentValue
  intro s off rest
  exact step_read_idle

/-! ### Writes that are stored and writes that are ignored -/

/-- The registers a host write does not change: the RO registers and the unmapped words (20_memory.md R67, R68). -/
def ignoresWrites : Reg → Bool
  | .status => true
  | .chrOut => true
  | .sym _ => true
  | .unmapped => true
  | _ => false

theorem store_of_ignoresWrites (s : State) (v : Word) {r : Reg} (h : ignoresWrites r = true) : r.store s v = s := by
  cases r with
  | status | chrOut | sym w | unmapped => rfl
  | _ => cases h

theorem ignoresWrites_regWord : ∀ w < 64,
    (w = 1 ∨ (11 ≤ w ∧ w < 16) ∨ (29 ≤ w ∧ w < 32) ∨ (38 ≤ w ∧ w < 40) ∨ 46 ≤ w) → ignoresWrites (regWord w) = true := by
  decide

theorem getLsbD_narrow_widen (v : Word) (n k : Nat) (hk : k < 32) :
    ((v.setWidth n).setWidth 32).getLsbD k = (decide (k < n) && v.getLsbD k) := by
  rw [BitVec.getLsbD_setWidth, BitVec.getLsbD_setWidth, decide_eq_true hk, Bool.true_and]

/-- The opcode a write to CMD stores is the low byte of the word (30_encoding.md R90). -/
theorem opField_eq_setWidth (v : Word) : opField v = v.setWidth 8 :=
  (BitVec.setWidth_eq_extractLsb' (by decide)).symm

/-- A write to a register that takes writes stores exactly the bits that are not reserved (20_memory.md R67, R69). -/
theorem getLsbD_read_store_same (s : State) (v : Word) {r : Reg} (h : ignoresWrites r = false) (k : Nat) (hk : k < 32) :
    (Reg.read (r.store s v) r).getLsbD k = (decide (k < regWidth r) && v.getLsbD k) := by
  cases r with
  | status | chrOut | sym w | unmapped => cases h
  | payload w | code w | ilv w =>
    refine (wordAt_setWordAt_same _ w v k hk).trans ?_
    simp only [regWidth, Nat.lt_sub_iff_add_lt']
  | cmd =>
    rw [Reg.read, Reg.store, acceptCommand_cmdOp, opField_eq_setWidth]
    exact getLsbD_narrow_widen v 8 k hk
  | callLen | locLen | chrIn => exact getLsbD_narrow_widen v 8 k hk
  | callB => exact getLsbD_narrow_widen v 16 k hk
  | _ => simp [-BitVec.getLsbD_eq_getElem, Reg.read, Reg.store, regWidth, hk]

theorem read_store_same (s : State) (v : Word) {r : Reg} (h : ignoresWrites r = false) :
    Reg.read (r.store s v) r = v &&& r.mask := by
  apply BitVec.eq_of_getLsbD_eq
  intro k hk
  have hr : r ≠ .status := by rintro rfl; cases h
  rw [getLsbD_read_store_same s v h k hk, BitVec.getLsbD_and, getLsbD_mask r hr k hk, Bool.and_comm]

/-- Settles O13: the register written reads as v without its reserved bits, and a store reaches one field only. -/
theorem writeStoresNonReservedBits : Obligations.WriteStoresNonReservedBits := by
  unfold Obligations.WriteStoresNonReservedBits
  intro s off v rest r hf hidle hal he hr hcmd hstatus hchr hsym hun
  have hrw : ignoresWrites r = false := by
    cases r with
    | status => exact absurd rfl hstatus
    | chrOut => exact absurd rfl hchr
    | sym w => exact absurd rfl (hsym w)
    | unmapped => exact absurd rfl hun
    | _ => rfl
  have hother (r' : Reg) (hne : r' ≠ r) : Reg.read (r.store (takeEvent s rest) v) r' = Reg.read s r' :=
    (read_store_other _ v r r' hne hcmd).trans (takeEvent_read s rest r')
  obtain ⟨hst, hpend, -⟩ := store_lifecycle (takeEvent s rest) v r hcmd
  refine ⟨r.store (takeEvent s rest) v, hr ▸ step_write_idle hf hidle hal he, read_store_same _ v hrw, hother, hst, hpend, ?_⟩
  simp

/-- Settles O14: `Reg.store` gives the state back at each of these offsets, and no write is stored while busy. -/
theorem readOnlyWriteIsIgnored : Obligations.ReadOnlyWriteIsIgnored := by
  unfold Obligations.ReadOnlyWriteIsIgnored
  intro s off v rest hf hal he hoff
  refine ⟨fun hidle => ?_, fun hbusy => step_write_fault hf (.inr hbusy) he⟩
  have hro : ignoresWrites (regAt off) = true := by
    have hlt := off.isLt
    exact ignoresWrites_regWord _ (by omega) (by omega)
  rw [step_write_idle hf hidle hal he, store_of_ignoresWrites _ v hro]
  rfl

/-! ### Reserved bits -/

theorem getLsbD_widen_of_ge {n : Nat} (x : BitVec n) {k : Nat} (h : n ≤ k) : (x.setWidth 32).getLsbD k = false := by
  rw [BitVec.getLsbD_setWidth, BitVec.getLsbD_of_ge x k h, Bool.and_false]

/-- The value of a register but STATUS ends at the register's width. -/
theorem getLsbD_read_of_ge (s : State) {r : Reg} (hr : r ≠ .status) {k : Nat} (h : regWidth r ≤ k) :
    (Reg.read s r).getLsbD k = false := by
  cases r with
  | status => exact absurd rfl hr
  | payload w | code w | ilv w | sym w =>
    simp only [Reg.read, getLsbD_wordAt]
    rw [BitVec.getLsbD_of_ge _ _ (Nat.sub_le_iff_le_add'.mp h), Bool.and_false]
  | unmapped => exact BitVec.getLsbD_zero
  | callA | loc | power | csCode | lpCode => exact BitVec.getLsbD_of_ge _ _ h
  | _ => exact getLsbD_widen_of_ge _ h

/-- BUSY, DONE and ERR each stand inside the bits of STATUS that are not reserved (10_state.md R25). -/
theorem status_word_and_mask (st : Status) : st.word &&& Reg.status.mask = st.word := by
  have hbusy : ∀ b, (BitVec.ofBool b).setWidth 32 &&& Reg.status.mask = (BitVec.ofBool b).setWidth 32 := by decide
  have hdone : ∀ b, (BitVec.ofBool b).setWidth 32 <<< 1 &&& Reg.status.mask = (BitVec.ofBool b).setWidth 32 <<< 1 := by
    decide
  have herr : ∀ e : BitVec 4, e.setWidth 32 <<< 4 &&& Reg.status.mask = e.setWidth 32 <<< 4 := by decide
  simp only [Status.word, BitVec.and_or_distrib_right, hbusy, hdone, herr]

theorem read_and_mask (s : State) (r : Reg) : Reg.read s r &&& r.mask = Reg.read s r := by
  by_cases hr : r = .status
  · subst hr
    exact status_word_and_mask s.status
  · apply BitVec.eq_of_getLsbD_eq
    intro k hk
    rw [BitVec.getLsbD_and, getLsbD_mask r hr k hk]
    by_cases hw : k < regWidth r
    · simp [hw]
    · simp [-BitVec.getLsbD_eq_getElem, hw, getLsbD_read_of_ge s hr (Nat.not_lt.mp hw)]

theorem read_le_mask (s : State) (r : Reg) : (Reg.read s r).toNat ≤ r.mask.toNat := by
  rw [← read_and_mask s r, BitVec.toNat_and]
  exact Nat.and_le_right

theorem getLsbD_read_of_mask (s : State) {r : Reg} {k : Nat} (h : r.mask.getLsbD k = false) :
    (Reg.read s r).getLsbD k = false := by
  rw [← read_and_mask s r, BitVec.getLsbD_and, h, Bool.and_false]

theorem read_and_not_mask (s : State) (r : Reg) : Reg.read s r &&& ~~~r.mask = 0 := by
  rw [← read_and_mask s r, BitVec.and_assoc, BitVec.and_not_self]
  exact BitVec.and_zero

/-- Settles O15: no register reads above its mask, so each reserved field is a bound on the mask. -/
theorem reservedBitsReadAsZero : Obligations.ReservedBitsReadAsZero := by
  unfold Obligations.ReservedBitsReadAsZero
  intro s
  have bound {r : Reg} {n : Nat} (h : r.mask.toNat < n) : (Reg.read s r).toNat < n := (read_le_mask s r).trans_lt h
  exact ⟨bound (by decide), bound (by decide), getLsbD_read_of_mask s (by decide), getLsbD_read_of_mask s (by decide),
    bound (by decide), bound (by decide), bound (by decide), bound (by decide), bound (by decide), bound (by decide),
    bound (by decide), bound (by decide), bound (by decide), rfl, read_and_not_mask s⟩

/-! ### The registers and the model's own fields -/

theorem read_of_ownFields (s : State) (hf : Bool) (rd : Option Word) (dr : Nat) (r : Reg) :
    Reg.read { s with hostFault := hf, rdata := rd, draws := dr } r = Reg.read s r := by
  cases r <;> rfl

theorem read_hostRead (bits : Nat) (off : Offset) (s : State) (r : Reg) :
    Reg.read (hostRead bits off s) r = Reg.read s r := by
  obtain ⟨hf, rd, dr, hread⟩ := hostRead_registers bits off s
  rw [hread, read_of_ownFields]

/-- The core's turn does nothing to an idle block (60_exceptions.md R226). -/
theorem pend_of_coreStep_changes {s t : State} (h : coreStep s = .next t) (hch : ∃ r, Reg.read t r ≠ Reg.read s r) :
    s.pend ≠ none := by
  intro hpend
  obtain ⟨r, hr⟩ := hch
  obtain rfl : s = t := by simpa [coreStep, hpend] using h
  exact hr rfl

/-- Settles O18: of the four events a read changes only the model's own fields, and the core's turn needs a pending
command. -/
theorem registersChangeOnlyByWriteResetOrCompletion : Obligations.RegistersChangeOnlyByWriteResetOrCompletion := by
  unfold Obligations.RegistersChangeOnlyByWriteResetOrCompletion
  intro s t hstep hch
  rcases step_takes s with ⟨hnil, htake⟩ | ⟨e, rest, he, htake⟩
  · obtain ⟨-, hrun⟩ := guardedEvent_next _ _ _ (htake ▸ hstep)
    exact .inr (.inr ⟨pend_of_coreStep_changes hrun hch, .inl hnil⟩)
  · obtain ⟨-, hrun⟩ := guardedEvent_next _ _ _ (htake ▸ hstep)
    simp only [← takeEvent_read s rest] at hch
    cases e with
    | read bits off =>
      obtain rfl : hostRead bits off (takeEvent s rest) = t := by injection hrun
      obtain ⟨r, hr⟩ := hch
      exact absurd (read_hostRead bits off _ r) hr
    | write bits off v => exact .inl ⟨bits, off, v, rest, he⟩
    | reset => exact .inr (.inl ⟨rest, he⟩)
    | coreTurn =>
      have hpend := pend_of_coreStep_changes hrun hch
      exact .inr (.inr ⟨hpend, .inr ⟨rest, he⟩⟩)

/-! ### Cells in their registers -/

/-- A `c`-bit cell of a buffer stands at the same place in the word that holds it (20_memory.md R64). -/
theorem cellAt_eq_extract_wordAt {n : Nat} (buf : BitVec n) {c m w k : Nat} (hm : c * m = 32) (hk : k < m) :
    cellAt c buf (m * w + k) = (wordAt buf w).extractLsb' (c * k) c := by
  apply BitVec.eq_of_getLsbD_eq
  intro j hj
  have hin : c * k + j < 32 := by
    have := Nat.mul_le_mul_left c (Nat.succ_le_of_lt hk)
    rw [Nat.mul_succ] at this
    omega
  have hidx : c * (m * w + k) + j = 32 * w + (c * k + j) := by
    rw [Nat.mul_add, ← Nat.mul_assoc, hm, Nat.add_assoc]
  simp [-BitVec.getLsbD_eq_getElem, getLsbD_cellAt, getLsbD_wordAt, hidx, hin]

theorem getLsbD_eq_getLsbD_wordAt {n : Nat} (buf : BitVec n) {w k : Nat} (hk : k < 32) :
    buf.getLsbD (32 * w + k) = (wordAt buf w).getLsbD k := by
  simp [-BitVec.getLsbD_eq_getElem, getLsbD_wordAt, hk]

/-- Characters 0 to 3 of the callsign are the byte lanes of CALL_A (10_state.md R28). -/
theorem callChar_low (s : State) {k : Nat} (hk : k < 4) : callChar s k = s.callA.extractLsb' (8 * k) 8 := by
  apply BitVec.eq_of_getLsbD_eq
  intro j hj
  have hlow : 8 * k + j < 32 := by omega
  rw [callChar, getLsbD_cellAt, BitVec.getLsbD_append, if_pos hlow, BitVec.getLsbD_extractLsb']

/-- Characters 4 and 5 are the byte lanes of CALL_B (10_state.md R28). -/
theorem callChar_high (s : State) {k : Nat} (hk : k < 2) :
    callChar s (4 + k) = (s.callB.setWidth 32).extractLsb' (8 * k) 8 := by
  apply BitVec.eq_of_getLsbD_eq
  intro j hj
  have hhigh : ¬ 8 * (4 + k) + j < 32 := by omega
  have hidx : 8 * (4 + k) + j - 32 = 8 * k + j := by omega
  have hin : 8 * k + j < 32 := by omega
  rw [callChar, getLsbD_cellAt, BitVec.getLsbD_append, if_neg hhigh, hidx, BitVec.getLsbD_extractLsb',
    BitVec.getLsbD_setWidth, decide_eq_true hin, Bool.true_and]

/-- Settles O21: a field narrower than its register is read unchanged, and a cell keeps its place in the word that holds
it. -/
theorem cellsStandInTheirRegisters : Obligations.CellsStandInTheirRegisters := by
  unfold Obligations.CellsStandInTheirRegisters
  intro s
  have zext {n : Nat} (x : BitVec n) (hn : n ≤ 32) : (x.setWidth 32).toNat = x.toNat :=
    BitVec.toNat_setWidth_of_le hn
  refine ⟨⟨zext _ (by decide), zext _ (by decide), rfl, zext _ (by decide), zext _ (by decide), rfl, rfl, rfl, rfl,
    zext _ (by decide), zext _ (by decide)⟩, ?_, fun k hk => ⟨callChar_low s hk, rfl⟩, fun k hk => callChar_high s hk,
    fun w k hk => cellAt_eq_extract_wordAt s.payload rfl hk, fun w k hk => getLsbD_eq_getLsbD_wordAt s.code hk,
    fun w k hk => getLsbD_eq_getLsbD_wordAt s.ilv hk, fun w k hk => cellAt_eq_extract_wordAt s.sym rfl hk⟩
  rintro a k rfl
  rfl

/-! ### The bus -/

theorem busOffset_inside (base : Nat) {off : Nat} (h : off < 0x100) :
    busOffset base (base + off) = some (BitVec.ofNat 8 off) := by
  rw [busOffset, Config.windowBytes, if_pos (by omega), Nat.add_sub_cancel_left]

theorem busOffset_outside {base addr : Nat} (h : addr < base ∨ base + 0x100 ≤ addr) : busOffset base addr = none := by
  rw [busOffset, Config.windowBytes, if_neg (by omega)]

/-- Settles O19: both bus functions go through `busOffset`. -/
theorem busReachesTheWindowOnly : Obligations.BusReachesTheWindowOnly := by
  unfold Obligations.BusReachesTheWindowOnly
  intro base addr
  constructor
  · rintro off hoff rfl bits v
    rw [memRead, memWrite, busOffset_inside base hoff]
    exact ⟨rfl, rfl⟩
  · intro hout bits v
    rw [memRead, memWrite, busOffset_outside hout]
    exact ⟨rfl, rfl⟩

end Sys2Proof.Proofs
end

section
/-! PROOFS. The family of 30_encoding.md: the opcode map, decoding and encoding, the placed command word, and the frame of the
nine commands. -/

namespace Sys2Proof.Proofs

open Sys2Proof.Machine Sys2Proof.Laws

/-! ### Opcodes -/

theorem assignedOpcode (i : Instr) : AssignedOpcode.Statement i := by
  cases i with
  | encode => exact AssignedOpcode.encode
  | srcCallsign => exact AssignedOpcode.srcCallsign
  | srcLocpwr => exact AssignedOpcode.srcLocpwr
  | pack => exact AssignedOpcode.pack
  | conv => exact AssignedOpcode.conv
  | interleave => exact AssignedOpcode.interleave
  | assemble => exact AssignedOpcode.assemble
  | chrAlnum => exact AssignedOpcode.chrAlnum
  | chrAlpha => exact AssignedOpcode.chrAlpha

@[simp] theorem decodeOp_opcodeOf (i : Instr) : decodeOp (opcodeOf i) = .ok i := by
  cases i <;> rfl

/-- Everything decoding an opcode can answer: the command whose opcode it is, or the refusal of a reserved opcode by its own
value (30_encoding.md R92, R93). -/
theorem decodeOp_cases (op : Opcode) :
    (∃ i, op = opcodeOf i ∧ decodeOp op = .ok i) ∨
    ((op.toNat = 0 ∨ 10 ≤ op.toNat) ∧ decodeOp op = .error (.reservedOpcode op)) := by
  unfold decodeOp
  split
  case h_10 =>
    refine .inr ⟨?_, rfl⟩
    simp only [imp_false] at *
    omega
  all_goals exact .inl ⟨_, BitVec.eq_of_toNat_eq ‹_›, rfl⟩

theorem decodeOp_eq_ok_iff (op : Opcode) (i : Instr) : decodeOp op = .ok i ↔ op = opcodeOf i := by
  constructor
  · intro h
    rcases decodeOp_cases op with ⟨j, hop, hj⟩ | ⟨-, herr⟩
    · obtain rfl : j = i := by rw [hj] at h; injection h
      exact hop
    · rw [herr] at h; cases h
  · rintro rfl
    exact decodeOp_opcodeOf i

theorem decodeOp_eq_error_iff (op op' : Opcode) :
    decodeOp op = .error (.reservedOpcode op') ↔ (op.toNat = 0 ∨ 10 ≤ op.toNat) ∧ op' = op := by
  rcases decodeOp_cases op with ⟨i, rfl, hok⟩ | ⟨hres, herr⟩
  · obtain ⟨hlow, hhigh, -⟩ := assignedOpcode i
    simp only [hok, reduceCtorEq, false_iff]
    omega
  · simp only [herr, Except.error.injEq, DecodeReject.reservedOpcode.injEq, hres, true_and, eq_comm (a := op)]

/-! ### Command words -/

/-- The opcode field is the low byte of the word (30_encoding.md R90, R91). -/
theorem toNat_opField (w : Word) : (opField w).toNat = w.toNat % 256 := by
  rw [opField_eq_setWidth, BitVec.toNat_setWidth]

theorem decode_eq_ok_iff (w : Word) (i : Instr) : decode w = .ok i ↔ w.toNat % 256 = (encode i).toNat := by
  obtain ⟨-, -, henc⟩ := assignedOpcode i
  rw [decode, decodeOp_eq_ok_iff, BitVec.toNat_eq, toNat_opField, henc]

theorem decode_eq_error_iff (w : Word) (op : Opcode) : decode w = .error (.reservedOpcode op) ↔
    (w.toNat % 256 = 0 ∨ 10 ≤ w.toNat % 256) ∧ op.toNat = w.toNat % 256 := by
  rw [decode, decodeOp_eq_error_iff, BitVec.toNat_eq, toNat_opField]

theorem encode_lt (i : Instr) : (encode i).toNat < 256 := by
  obtain ⟨-, hhigh, henc⟩ := assignedOpcode i
  omega

theorem decode_encode (i : Instr) : decode (encode i) = .ok i :=
  (decode_eq_ok_iff _ i).mpr (Nat.mod_eq_of_lt (encode_lt i))

/-- Settles O2: decoding reads the low byte, and every byte is either the opcode of one command or reserved. -/
theorem decodeEncodeAgreeOnEveryWord : Obligations.DecodeEncodeAgreeOnEveryWord := by
  unfold Obligations.DecodeEncodeAgreeOnEveryWord
  exact ⟨fun i => ⟨decode_encode i, encode_lt i⟩, decode_eq_ok_iff, decode_eq_error_iff⟩

/-- Settles O1, each word by its low byte. -/
theorem opcodeMapWordsDecode : Obligations.OpcodeMapWordsDecode := by
  unfold Obligations.OpcodeMapWordsDecode
  simp only [decode_eq_ok_iff, decode_eq_error_iff]
  decide

/-! ### The placed command word -/

theorem opField_of_decode {w : Word} {i : Instr} (h : decode w = .ok i) : opField w = opcodeOf i :=
  (decodeOp_eq_ok_iff _ i).mp h

theorem decodeTableWord_eq_some_iff (nbits w : Nat) (i : Instr) :
    decodeTableWord nbits w = some i ↔ decode (tableWord nbits w) = .ok i := by
  unfold decodeTableWord
  cases decode (tableWord nbits w) <;> simp

theorem coreStep_pending {s : State} {i : Instr} (h : s.pend = some (opcodeOf i)) : coreStep s = exec i s := by
  simp only [coreStep, h, completionStep, decodeOp_opcodeOf]

/-- Settles O4: the placed word is pending with the core's turn at the head of the events. -/
theorem placedWordRunsNext : Obligations.PlacedWordRunsNext := by
  unfold Obligations.PlacedWordRunsNext
  intro s nbits w i h
  have hop := opField_of_decode ((decodeTableWord_eq_some_iff nbits w i).mp h)
  have hpend : (takeEvent (s.withFetchWord nbits w) s.events).pend = some (opcodeOf i) := congrArg some hop
  calc step (s.withFetchWord nbits w)
      = coreStep (takeEvent (s.withFetchWord nbits w) s.events) := step_event _ .coreTurn s.events rfl rfl
    _ = exec i (takeEvent (s.withFetchWord nbits w) s.events) := coreStep_pending hpend
    _ = _ := by rw [← hop]; rfl

/-! ### The frame of the nine commands -/

/-- Completion writes STATUS, and no other register (70_reset_and_hazards.md R249). -/
theorem read_complete (s : State) (e : ErrCode) {r : Reg} (h : r ≠ .status) : Reg.read (complete s e) r = Reg.read s r := by
  cases r with
  | status => exact absurd rfl h
  | _ => rfl

/-- The state `u` differs from `s` in the write set of command `i` alone, and in SR only if `i` is CONV or ENCODE
(30_encoding.md R94, 10_state.md R40). -/
structure FramedBy (i : Instr) (s u : State) : Prop where
  read : ∀ r, commandWrites i r = false → Reg.read u r = Reg.read s r
  hostFault : u.hostFault = s.hostFault
  events : u.events = s.events
  rdata : u.rdata = s.rdata
  draws : u.draws = s.draws
  sr : i ≠ .conv → i ≠ .encode → u.sr = s.sr

theorem framedBy_refl (i : Instr) (s : State) : FramedBy i s s := ⟨fun _ _ => rfl, rfl, rfl, rfl, rfl, fun _ _ => rfl⟩

/-- Every command ends in a completion, its other writes made inside its write set. -/
theorem exec_framedBy (i : Instr) (s : State) : ∃ u e, exec i s = .next (complete u e) ∧ FramedBy i s u := by
  cases i with
  | encode =>
    simp only [exec, execEncode]
    cases encodeMessage (callLength s) (callChar s) (locLength s) (locChar s) (powerValue s) with
    | error e => exact ⟨s, e, rfl, framedBy_refl _ s⟩
    | ok r =>
      refine ⟨_, .none, rfl, fun r hr => ?_, rfl, rfl, rfl, rfl, fun _ h => absurd rfl h⟩
      cases r with
      | csCode | lpCode | payload w | code w | ilv w | sym w => cases hr
      | _ => rfl
  | srcCallsign =>
    simp only [exec, execSrcCallsign]
    cases encodeCallsign (callLength s) (callChar s) with
    | error e => exact ⟨s, e, rfl, framedBy_refl _ s⟩
    | ok r =>
      refine ⟨_, .none, rfl, fun r hr => ?_, rfl, rfl, rfl, rfl, fun _ _ => rfl⟩
      cases r with
      | csCode => cases hr
      | _ => rfl
  | srcLocpwr =>
    simp only [exec, execSrcLocpwr]
    cases encodeLocatorPower (locLength s) (locChar s) (powerValue s) with
    | error e => exact ⟨s, e, rfl, framedBy_refl _ s⟩
    | ok r =>
      refine ⟨_, .none, rfl, fun r hr => ?_, rfl, rfl, rfl, rfl, fun _ _ => rfl⟩
      cases r with
      | lpCode => cases hr
      | _ => rfl
  | conv =>
    simp only [exec, execConv]
    cases convEncode s.payload with
    | error e => exact ⟨s, e, rfl, framedBy_refl _ s⟩
    | ok r =>
      refine ⟨_, .none, rfl, fun r hr => ?_, rfl, rfl, rfl, rfl, fun h _ => absurd rfl h⟩
      cases r with
      | code w => cases hr
      | _ => rfl
  | pack =>
    refine ⟨_, .none, rfl, fun r hr => ?_, rfl, rfl, rfl, rfl, fun _ _ => rfl⟩
    cases r with
    | payload w => cases hr
    | _ => rfl
  | interleave =>
    refine ⟨_, .none, rfl, fun r hr => ?_, rfl, rfl, rfl, rfl, fun _ _ => rfl⟩
    cases r with
    | ilv w => cases hr
    | _ => rfl
  | assemble =>
    refine ⟨_, .none, rfl, fun r hr => ?_, rfl, rfl, rfl, rfl, fun _ _ => rfl⟩
    cases r with
    | sym w => cases hr
    | _ => rfl
  | chrAlnum | chrAlpha =>
    refine ⟨_, .none, rfl, fun r hr => ?_, rfl, rfl, rfl, rfl, fun _ _ => rfl⟩
    cases r with
    | chrOut => cases hr
    | _ => rfl

/-- Settles O28: a command writes inside its write set, and its completion writes STATUS. Each row of `commandWrites` is a
register the statement names. -/
theorem commandFrame : Obligations.CommandFrame := by
  unfold Obligations.CommandFrame
  intro i s t hexec
  obtain ⟨u, e, hend, hframe⟩ := exec_framedBy i s
  obtain rfl : complete u e = t := by rw [hend] at hexec; injection hexec
  refine ⟨fun r hstatus hout => ?_, hframe.hostFault, hframe.events, hframe.rdata, hframe.draws, hframe.sr⟩
  have hw : commandWrites i r = false := by
    unfold commandWrites
    split
    case h_15 => rfl
    all_goals simp at hout
  have hread : Reg.read (complete u e) r = Reg.read s r := (read_complete u e hstatus).trans (hframe.read r hw)
  refine ⟨hread, fun a ha => ?_⟩
  rw [windowByte, windowByte, ha, hread]

end Sys2Proof.Proofs
end

section
/-! PROOFS. The family of 40_char_encoder.md: the character classes, and the results of CHR_ALNUM and CHR_ALPHA. -/

namespace Sys2Proof.Proofs

open Sys2Proof.Machine Sys2Proof.Laws

/-! ### The character classes -/

theorem isDigit_iff (c : Byte) : isDigit c = true ↔ 0x30 ≤ c.toNat ∧ c.toNat ≤ 0x39 := by
  simp only [isDigit, Bool.and_eq_true, decide_eq_true_eq]

theorem isLetter_iff (c : Byte) : isLetter c = true ↔ 0x41 ≤ c.toNat ∧ c.toNat ≤ 0x5A := by
  simp only [isLetter, Bool.and_eq_true, decide_eq_true_eq]

theorem isSpace_iff (c : Byte) : isSpace c = true ↔ c.toNat = 0x20 := by
  simp only [isSpace, beq_iff_eq]

theorem not_isDigit_of_isLetter {c : Byte} (h : isLetter c = true) : ¬ isDigit c = true := by
  rw [isLetter_iff] at h
  rw [isDigit_iff]
  omega

theorem not_isDigit_of_isSpace {c : Byte} (h : isSpace c = true) : ¬ isDigit c = true := by
  rw [isSpace_iff] at h
  rw [isDigit_iff]
  omega

theorem not_isLetter_of_isSpace {c : Byte} (h : isSpace c = true) : ¬ isLetter c = true := by
  rw [isSpace_iff] at h
  rw [isLetter_iff]
  omega

/-- Settles O59: the ranges of the three classes do not meet. -/
theorem characterClassesAreTheCodesOfR110 : Obligations.CharacterClassesAreTheCodesOfR110 := by
  unfold Obligations.CharacterClassesAreTheCodesOfR110
  exact fun c => ⟨isDigit_iff c, isLetter_iff c, isSpace_iff c, fun h => not_isDigit_of_isLetter h.2 h.1,
    fun h => not_isDigit_of_isSpace h.1 h.2, fun h => not_isLetter_of_isSpace h.1 h.2⟩

/-! ### The two encoders, class by class -/

theorem encodeAlnum_of_isDigit {c : Byte} (h : isDigit c = true) : encodeAlnum c = c.toNat - 0x30 :=
  if_pos h

theorem encodeAlnum_of_isLetter {c : Byte} (h : isLetter c = true) : encodeAlnum c = c.toNat - 0x41 + 10 := by
  rw [encodeAlnum, if_neg (not_isDigit_of_isLetter h), if_pos h]

theorem encodeAlnum_of_isSpace {c : Byte} (h : isSpace c = true) : encodeAlnum c = 36 := by
  rw [encodeAlnum, if_neg (not_isDigit_of_isSpace h), if_neg (not_isLetter_of_isSpace h), if_pos h]

theorem encodeAlnum_of_other {c : Byte} (hd : ¬ isDigit c = true) (hl : ¬ isLetter c = true) (hs : ¬ isSpace c = true) :
    encodeAlnum c = 0 := by
  rw [encodeAlnum, if_neg hd, if_neg hl, if_neg hs]

theorem encodeAlpha_of_isLetter {c : Byte} (h : isLetter c = true) : encodeAlpha c = c.toNat - 0x41 :=
  if_pos h

theorem encodeAlpha_of_isSpace {c : Byte} (h : isSpace c = true) : encodeAlpha c = 26 := by
  rw [encodeAlpha, if_neg (not_isLetter_of_isSpace h), if_pos h]

/-- Digits are among the other codes here (40_char_encoder.md R113). -/
theorem encodeAlpha_of_other {c : Byte} (hl : ¬ isLetter c = true) (hs : ¬ isSpace c = true) : encodeAlpha c = 0 := by
  rw [encodeAlpha, if_neg hl, if_neg hs]

/-! ### The character commands end with a code in CHR_OUT -/

/-- CHR_OUT holds the code `n` of a character without loss, and the host reads `n` there (40_char_encoder.md R114, R115). -/
theorem succeed_chrOut (s : State) {n v : Nat} (hle : n ≤ 36) (hv : n = v) :
    ∃ t : State, succeed { s with chrOut := BitVec.ofNat 6 n } = .next t ∧
      t = { s with chrOut := BitVec.ofNat 6 v, status := ⟨false, true, .none⟩, pend := none } ∧
      t.chrOut.toNat = v ∧ (Reg.read t .chrOut).toNat = v := by
  subst hv
  have hfield : (BitVec.ofNat 6 n).toNat = n := by
    rw [BitVec.toNat_ofNat, Nat.mod_eq_of_lt (by omega)]
  have hread : ((BitVec.ofNat 6 n).setWidth 32).toNat = n := (BitVec.toNat_setWidth_of_le (by decide)).trans hfield
  exact ⟨_, rfl, rfl, hfield, hread⟩

/-- Settles O31: the four kinds of codes are the branches of `encodeAlnum`. -/
theorem chrAlnumResult : Obligations.ChrAlnumResult := by
  unfold Obligations.ChrAlnumResult
  refine ⟨decode_encode .chrAlnum, fun s v h => succeed_chrOut s (encodeAlnum_le _) ?_⟩
  rcases h with ⟨hlo, hhi, hv⟩ | ⟨hlo, hhi, hv⟩ | ⟨hc, hv⟩ | ⟨hspace, hdigit, hletter, hv⟩
  · rw [encodeAlnum_of_isDigit ((isDigit_iff _).mpr ⟨hlo, hhi⟩)]
    omega
  · rw [encodeAlnum_of_isLetter ((isLetter_iff _).mpr ⟨hlo, hhi⟩)]
    omega
  · rw [encodeAlnum_of_isSpace ((isSpace_iff _).mpr hc), hv]
  · rw [hv]
    apply encodeAlnum_of_other
    · rw [isDigit_iff]; omega
    · rw [isLetter_iff]; omega
    · rw [isSpace_iff]; exact hspace

/-- Settles O32: the three kinds of codes are the branches of `encodeAlpha`. -/
theorem chrAlphaResult : Obligations.ChrAlphaResult := by
  unfold Obligations.ChrAlphaResult
  refine ⟨decode_encode .chrAlpha, fun s v h => succeed_chrOut s ((encodeAlpha_le _).trans (by decide)) ?_⟩
  rcases h with ⟨hlo, hhi, hv⟩ | ⟨hc, hv⟩ | ⟨hspace, hletter, hv⟩
  · rw [encodeAlpha_of_isLetter ((isLetter_iff _).mpr ⟨hlo, hhi⟩)]
    omega
  · rw [encodeAlpha_of_isSpace ((isSpace_iff _).mpr hc), hv]
  · rw [hv]
    apply encodeAlpha_of_other
    · rw [isLetter_iff]; omega
    · rw [isSpace_iff]; exact hspace

end Sys2Proof.Proofs
end

section
/-! PROOFS. The family of 41_source_frame.md: SRC_CALLSIGN, SRC_LOCPWR and PACK, and case folding in them and in ENCODE. -/

namespace Sys2Proof.Proofs

open Sys2Proof.Machine Sys2Proof.Laws

/-! ### How the source commands and ENCODE end -/

theorem exec_srcCallsign_of_ok {s : State} {r : Nat} (h : encodeCallsign (callLength s) (callChar s) = .ok r) :
    exec .srcCallsign s = .next (complete { s with csCode := BitVec.ofNat 32 r } .none) := by
  rw [exec, execSrcCallsign, h]
  rfl

theorem exec_srcCallsign_of_error {s : State} {e : ErrCode} (h : encodeCallsign (callLength s) (callChar s) = .error e) :
    exec .srcCallsign s = .next (complete s e) := by
  rw [exec, execSrcCallsign, h]
  rfl

theorem exec_srcLocpwr_of_ok {s : State} {r : Nat}
    (h : encodeLocatorPower (locLength s) (locChar s) (powerValue s) = .ok r) :
    exec .srcLocpwr s = .next (complete { s with lpCode := BitVec.ofNat 32 r } .none) := by
  rw [exec, execSrcLocpwr, h]
  rfl

theorem exec_srcLocpwr_of_error {s : State} {e : ErrCode}
    (h : encodeLocatorPower (locLength s) (locChar s) (powerValue s) = .error e) :
    exec .srcLocpwr s = .next (complete s e) := by
  rw [exec, execSrcLocpwr, h]
  rfl

theorem exec_encode_of_ok {s : State} {r : EncodedMessage}
    (h : encodeMessage (callLength s) (callChar s) (locLength s) (locChar s) (powerValue s) = .ok r) :
    exec .encode s = .next (complete { s with
      csCode := r.cs, lpCode := r.lp, payload := r.pl, code := r.code, ilv := r.ilv, sym := r.sym, sr := r.sr } .none) := by
  rw [exec, execEncode, h]
  rfl

theorem exec_encode_of_error {s : State} {e : ErrCode}
    (h : encodeMessage (callLength s) (callChar s) (locLength s) (locChar s) (powerValue s) = .error e) :
    exec .encode s = .next (complete s e) := by
  rw [exec, execEncode, h]
  rfl

/-- SRC_CALLSIGN ends with ERR = 0 only by storing a callsign code (41_source_frame.md R136). -/
theorem exec_srcCallsign_success {s t : State} (h : exec .srcCallsign s = .next t) (herr : t.status.err = .none) :
    ∃ r, encodeCallsign (callLength s) (callChar s) = .ok r ∧ t.csCode = BitVec.ofNat 32 r := by
  cases hr : encodeCallsign (callLength s) (callChar s) with
  | ok r =>
    obtain rfl : complete _ .none = t := by rw [exec_srcCallsign_of_ok hr] at h; injection h
    exact ⟨r, rfl, rfl⟩
  | error e =>
    obtain rfl : complete s e = t := by rw [exec_srcCallsign_of_error hr] at h; injection h
    obtain rfl := encodeCallsign_error _ _ _ hr
    cases herr

/-- SRC_LOCPWR ends with ERR = 0 only by storing a locator/power code (41_source_frame.md R137). -/
theorem exec_srcLocpwr_success {s t : State} (h : exec .srcLocpwr s = .next t) (herr : t.status.err = .none) :
    ∃ r, encodeLocatorPower (locLength s) (locChar s) (powerValue s) = .ok r ∧ t.lpCode = BitVec.ofNat 32 r := by
  cases hr : encodeLocatorPower (locLength s) (locChar s) (powerValue s) with
  | ok r =>
    obtain rfl : complete _ .none = t := by rw [exec_srcLocpwr_of_ok hr] at h; injection h
    exact ⟨r, rfl, rfl⟩
  | error e =>
    obtain rfl : complete s e = t := by rw [exec_srcLocpwr_of_error hr] at h; injection h
    obtain rfl | rfl := encodeLocatorPower_error _ _ _ _ hr <;> cases herr

/-! ### `encode_callsign`: the length, the shape of the suffix, the accepted callsigns -/

theorem encodeCallsign_of_badLength {n : Nat} (call : Nat → Byte) (h : n < 3 ∨ 6 < n) :
    encodeCallsign n call = .error .callsign :=
  if_pos h

theorem encodeMessage_of_callsign_error {n : Nat} {call : Nat → Byte} {e : ErrCode} (h : encodeCallsign n call = .error e)
    (m : Nat) (loc : Nat → Byte) (p : Nat) : encodeMessage n call m loc p = .error e := by
  rw [encodeMessage, h]

/-- Settles O35: the length check comes before any character is read. -/
theorem callsignLengthIsChecked : Obligations.CallsignLengthIsChecked := by
  unfold Obligations.CallsignLengthIsChecked
  intro s h
  have herr : encodeCallsign (callLength s) (callChar s) = .error .callsign := encodeCallsign_of_badLength _ h
  exact ⟨exec_srcCallsign_of_error herr, exec_encode_of_error (encodeMessage_of_callsign_error herr _ _ _)⟩

/-- `encode_callsign` returns a code exactly when every step passes, and the code is that of the realigned buffer
(41_source_frame.md R121 to R127). -/
theorem encodeCallsign_eq_ok_iff (n : Nat) (call : Nat → Byte) (r : Nat) :
    encodeCallsign n call = .ok r ↔ (3 ≤ n ∧ n ≤ 6) ∧ prefixOk (realign (padCallsign n call)) = true ∧
      suffixOk (realign (padCallsign n call)) = true ∧ mixedRadix (realign (padCallsign n call)) = r := by
  have hlen : (n < Config.callsignMin ∨ Config.callsignMax < n) ↔ ¬(3 ≤ n ∧ n ≤ 6) := by
    simp only [Config.callsignMin, Config.callsignMax]; omega
  simp only [encodeCallsign, hlen, Bool.not_eq_true', Bool.eq_false_iff, ne_eq]
  split_ifs with hrange hprefix hsuffix
  · simp only [hrange, hprefix, hsuffix, and_self, true_and, Except.ok.injEq]
  · exact iff_of_false nofun fun ⟨_, _, h, _⟩ => hsuffix h
  · exact iff_of_false nofun fun ⟨_, h, _⟩ => hprefix h
  · exact iff_of_false nofun fun ⟨h, _⟩ => hrange h

/-- The prefix rule, as R124 words it. -/
theorem prefixOk_iff (b : CallBuf) : prefixOk b = true ↔
    (isSpace b.b0 = true ∨ isLetter b.b0 = true ∨ isDigit b.b0 = true) ∧ isLetter b.b1 = true ∧ isDigit b.b2 = true := by
  simp only [prefixOk, Bool.and_eq_true, Bool.or_eq_true, or_assoc, and_assoc]

/-- The working buffer that holds the first six characters of `b` (41_source_frame.md R122). -/
def callBufOf (b : Nat → Byte) : CallBuf := ⟨b 0, b 1, b 2, b 3, b 4, b 5⟩

/-- The shapes LLL, LLS, LSS and SSS are the letters followed by spaces only (41_source_frame.md R125). -/
theorem suffixOk_iff (b : Nat → Byte) : suffixOk (callBufOf b) = true ↔
    ∃ m, ∀ k < 3, if k < m then isLetter (b (3 + k)) = true else isSpace (b (3 + k)) = true := by
  have hexcl {k : Nat} : isSpace (b k) = true → ¬ isLetter (b k) = true := not_isLetter_of_isSpace
  have hshape : suffixOk (callBufOf b) = true ↔
      (isLetter (b 3) = true ∨ isSpace (b 3) = true) ∧ (isLetter (b 4) = true ∨ isSpace (b 4) = true) ∧
      (isLetter (b 5) = true ∨ isSpace (b 5) = true) ∧ ¬(isSpace (b 3) = true ∧ isLetter (b 4) = true) ∧
      ¬(isSpace (b 3) = true ∧ isLetter (b 5) = true) ∧ ¬(isSpace (b 4) = true ∧ isLetter (b 5) = true) := by
    simp only [suffixOk, callBufOf, Bool.and_eq_true, Bool.or_eq_true, Bool.not_eq_true', Bool.eq_false_iff, ne_eq, and_assoc]
  simp only [hshape, Nat.forall_lt_succ_right, Nat.not_lt_zero, false_implies, implies_true, true_and, and_assoc]
  constructor
  · rintro ⟨letter3 | space3, h4, h5, h34, h35, h45⟩
    · obtain letter4 | space4 := h4
      · obtain letter5 | space5 := h5
        · exact ⟨3, letter3, letter4, letter5⟩
        · exact ⟨2, letter3, letter4, space5⟩
      · exact ⟨1, letter3, space4, h5.resolve_left fun l => h45 ⟨space4, l⟩⟩
    · exact ⟨0, space3, h4.resolve_left fun l => h34 ⟨space3, l⟩, h5.resolve_left fun l => h35 ⟨space3, l⟩⟩
  · rintro ⟨_ | _ | _ | m, h3, h4, h5⟩
    · exact ⟨.inr h3, .inr h4, .inr h5, fun h => hexcl h4 h.2, fun h => hexcl h5 h.2, fun h => hexcl h5 h.2⟩
    · exact ⟨.inl h3, .inr h4, .inr h5, fun h => hexcl h.1 h3, fun h => hexcl h.1 h3, fun h => hexcl h5 h.2⟩
    · exact ⟨.inl h3, .inl h4, .inr h5, fun h => hexcl h.1 h3, fun h => hexcl h.1 h3, fun h => hexcl h.1 h4⟩
    · exact ⟨.inl h3, .inl h4, .inl h5, fun h => hexcl h.1 h3, fun h => hexcl h.1 h3, fun h => hexcl h.1 h4⟩

/-- Padding and realignment, as R122 and R123 word them: `t` is the folded text padded with spaces. -/
theorem realign_padCallsign {n : Nat} {call t b : Nat → Byte}
    (hpad : ∀ k < 6, t k = if k < n then upper (call k) else 0x20)
    (hkept : isDigit (t 2) = true → ∀ k < 6, b k = t k)
    (hshifted : isDigit (t 2) = false → b 0 = 0x20 ∧ ∀ k < 5, b (k + 1) = t k) :
    realign (padCallsign n call) = callBufOf b := by
  have hbuf : padCallsign n call = callBufOf t := by
    simp [padCallsign, padChar, callBufOf, hpad]
  rw [hbuf, realign]
  cases hdigit : isDigit (t 2) with
  | true => simp [callBufOf, hdigit, hkept hdigit]
  | false =>
    obtain ⟨hzero, hsucc⟩ := hshifted hdigit
    simp [hdigit, callBufOf, hzero, hsucc]

/-- Settles O33: the realigned buffer is `b`, so the prefix and the suffix pass, and the code is its mixed-radix number. -/
theorem srcCallsignEncodesValidCallsign : Obligations.SrcCallsignEncodesValidCallsign := by
  unfold Obligations.SrcCallsignEncodesValidCallsign
  intro s t b m hmin hmax hpad hkept hshifted hfirst hletter hdigit hsuffix
  have hbuf : realign (padCallsign (callLength s) (callChar s)) = callBufOf b := realign_padCallsign hpad hkept hshifted
  have hok : encodeCallsign (callLength s) (callChar s) = .ok (mixedRadix (callBufOf b)) := by
    rw [encodeCallsign_eq_ok_iff, hbuf]
    exact ⟨⟨hmin, hmax⟩, (prefixOk_iff _).mpr ⟨hfirst, hletter, hdigit⟩, (suffixOk_iff b).mpr ⟨m, hsuffix⟩, rfl⟩
  exact exec_srcCallsign_of_ok hok

/-- The first character is at most 36, the second a letter and the third a digit, which bounds the code (41_source_frame.md
R126). -/
theorem mixedRadix_le (b : CallBuf) (h : prefixOk b = true) : mixedRadix b ≤ 262177559 := by
  obtain ⟨-, hletter, hdigit⟩ := (prefixOk_iff b).mp h
  have h0 := encodeAlnum_le b.b0
  have h1 : encodeAlnum b.b1 ≤ 35 := by
    rw [encodeAlnum_of_isLetter hletter]
    have := (isLetter_iff _).mp hletter
    omega
  have h2 : encodeAlnum b.b2 ≤ 9 := by
    rw [encodeAlnum_of_isDigit hdigit]
    have := (isDigit_iff _).mp hdigit
    omega
  have h3 := encodeAlpha_le b.b3
  have h4 := encodeAlpha_le b.b4
  have h5 := encodeAlpha_le b.b5
  simp only [mixedRadix]
  omega

/-- The callsign " Z9": in every place the largest digit of the mixed-radix code. -/
def callsignSpaceZ9 : State := { State.reset with callLen := 3, callA := 0x00395A20 }

/-- Settles O36: the code of an accepted prefix is bounded, and " Z9" reaches the bound. -/
theorem callsignCodeFits28Bits : Obligations.CallsignCodeFits28Bits := by
  unfold Obligations.CallsignCodeFits28Bits
  constructor
  · intro s t hexec herr
    obtain ⟨r, hr, hcode⟩ := exec_srcCallsign_success hexec herr
    obtain ⟨-, hprefix, -, rfl⟩ := (encodeCallsign_eq_ok_iff _ _ _).mp hr
    have hle := mixedRadix_le _ hprefix
    rw [hcode, BitVec.toNat_ofNat, Nat.mod_eq_of_lt (by omega)]
    omega
  · have hok : encodeCallsign (callLength callsignSpaceZ9) (callChar callsignSpaceZ9) = .ok 262177559 := by decide
    exact ⟨callsignSpaceZ9, _, exec_srcCallsign_of_ok hok, rfl, by rw [complete_csCode, BitVec.toNat_ofNat]⟩

/-! ### Case folding -/

theorem toNat_upper (c : Byte) :
    (upper c).toNat = if 0x61 ≤ c.toNat ∧ c.toNat ≤ 0x7A then c.toNat - 0x20 else c.toNat := by
  unfold upper
  split_ifs with h
  · exact BitVec.toNat_sub_of_le (BitVec.le_def.mpr (show 0x20 ≤ c.toNat by omega))
  · rfl

@[simp] theorem upper_upper (c : Byte) : upper (upper c) = upper c := by
  apply BitVec.eq_of_toNat_eq
  rw [toNat_upper (upper c), toNat_upper c]
  split_ifs <;> omega

/-- A character that is the folded form of another folds to the same one (40_char_encoder.md R111). -/
theorem upper_eq_of_folded {c c' : Byte}
    (h : c'.toNat = if 0x61 ≤ c.toNat ∧ c.toNat ≤ 0x7A then c.toNat - 0x20 else c.toNat) : upper c' = upper c := by
  obtain rfl : c' = upper c := BitVec.eq_of_toNat_eq (h.trans (toNat_upper c).symm)
  exact upper_upper c

/-- The callsign matters only as folded (41_source_frame.md R120). -/
theorem encodeCallsign_congr (n : Nat) {call call' : Nat → Byte} (h : ∀ k < 6, upper (call k) = upper (call' k)) :
    encodeCallsign n call = encodeCallsign n call' := by
  have hpad : padCallsign n call = padCallsign n call' := by simp [padCallsign, padChar, h]
  rw [encodeCallsign, hpad, encodeCallsign]

/-- SRC_CALLSIGN ends alike on callsigns that `encode_callsign` does not tell apart. -/
theorem srcCallsign_ends_alike {s s' : State}
    (h : encodeCallsign (callLength s') (callChar s') = encodeCallsign (callLength s) (callChar s)) :
    ∃ t t', exec .srcCallsign s = .next t ∧ exec .srcCallsign s' = .next t' ∧ t.status = t'.status ∧
      (t.status.err = .none → t.csCode = t'.csCode) := by
  cases hr : encodeCallsign (callLength s) (callChar s) with
  | ok r => exact ⟨_, _, exec_srcCallsign_of_ok hr, exec_srcCallsign_of_ok (h.trans hr), rfl, fun _ => rfl⟩
  | error e =>
    obtain rfl := encodeCallsign_error _ _ _ hr
    exact ⟨_, _, exec_srcCallsign_of_error hr, exec_srcCallsign_of_error (h.trans hr), rfl, fun hnone => nomatch hnone⟩

/-- Settles O37: folding twice is folding once. -/
theorem callsignCaseIsFolded : Obligations.CallsignCaseIsFolded := by
  unfold Obligations.CallsignCaseIsFolded
  refine ⟨toNat_upper, fun s s' hlen hfold => srcCallsign_ends_alike ?_⟩
  rw [callLength, hlen, ← callLength]
  exact encodeCallsign_congr _ fun k hk => upper_eq_of_folded (hfold k hk)

/-- Realignment pushes the sixth character out of the buffer (41_source_frame.md R123). -/
theorem encodeCallsign_six_eq_five {call : Nat → Byte} (h : isDigit (upper (call 2)) = false) :
    encodeCallsign 5 call = encodeCallsign 6 call := by
  have hbuf : realign (padCallsign 5 call) = realign (padCallsign 6 call) := by
    simp [realign, padCallsign, padChar, h]
  have hfive : ¬(5 < Config.callsignMin ∨ Config.callsignMax < 5) := by decide
  have hsix : ¬(6 < Config.callsignMin ∨ Config.callsignMax < 6) := by decide
  rw [encodeCallsign, if_neg hfive, hbuf, encodeCallsign, if_neg hsix]

/-- Settles O38: the buffers of the six characters and of the first five are the same once realigned. -/
theorem sixthCharacterIsDropped : Obligations.SixthCharacterIsDropped := by
  unfold Obligations.SixthCharacterIsDropped
  intro s hlen hthird
  apply srcCallsign_ends_alike
  rw [callLength, callLength, hlen]
  exact encodeCallsign_six_eq_five hthird

/-! ### `encode_locator_power` -/

theorem isLocLetter_iff (c : Byte) : isLocLetter c = true ↔ 0x41 ≤ c.toNat ∧ c.toNat ≤ 0x52 := by
  simp only [isLocLetter, Bool.and_eq_true, decide_eq_true_eq]

theorem locatorOk_iff (l : Nat → Byte) : locatorOk l = true ↔
    (0x41 ≤ (l 0).toNat ∧ (l 0).toNat ≤ 0x52) ∧ (0x41 ≤ (l 1).toNat ∧ (l 1).toNat ≤ 0x52) ∧
    (0x30 ≤ (l 2).toNat ∧ (l 2).toNat ≤ 0x39) ∧ (0x30 ≤ (l 3).toNat ∧ (l 3).toNat ≤ 0x39) := by
  simp only [locatorOk, Bool.and_eq_true, isLocLetter_iff, isDigit_iff, and_assoc]

/-- `encode_locator_power` returns a code exactly when every check passes (41_source_frame.md R128 to R133). -/
theorem encodeLocatorPower_eq_ok_iff (m : Nat) (loc : Nat → Byte) (p r : Nat) :
    encodeLocatorPower m loc p = .ok r ↔ m = 4 ∧ locatorOk (fun k => upper (loc k)) = true ∧ p ≤ 60 ∧
      locatorCode (fun k => upper (loc k)) * 128 + 64 + p = r := by
  have hpower : Config.powerMax < p ↔ ¬ p ≤ 60 := Nat.not_le.symm
  simp only [encodeLocatorPower, hpower, Bool.not_eq_true', Bool.eq_false_iff, ne_eq]
  split_ifs with hlen hvalid hle
  · simp only [hlen, hvalid, hle, true_and, Except.ok.injEq]
  · exact iff_of_false nofun fun ⟨_, _, h, _⟩ => hle h
  · exact iff_of_false nofun fun ⟨_, h, _⟩ => hvalid h
  · exact iff_of_false nofun fun ⟨h, _⟩ => hlen h

/-- On a valid locator the signed arithmetic does not go below zero, so the cast loses nothing (41_source_frame.md R131). -/
theorem locatorCode_cast {l : Nat → Byte} (h : locatorOk l = true) :
    (locatorCode l : Int) = (179 - 10 * (((l 0).toNat : Int) - 0x41) - (((l 2).toNat : Int) - 0x30)) * 180 +
      10 * (((l 1).toNat : Int) - 0x41) + (((l 3).toNat : Int) - 0x30) := by
  obtain ⟨h0, h1, h2, h3⟩ := (locatorOk_iff l).mp h
  have e0 : encodeAlpha (l 0) = (l 0).toNat - 0x41 := encodeAlpha_of_isLetter ((isLetter_iff _).mpr (by omega))
  have e1 : encodeAlpha (l 1) = (l 1).toNat - 0x41 := encodeAlpha_of_isLetter ((isLetter_iff _).mpr (by omega))
  have e2 : encodeAlnum (l 2) = (l 2).toNat - 0x30 := encodeAlnum_of_isDigit ((isDigit_iff _).mpr h2)
  have e3 : encodeAlnum (l 3) = (l 3).toNat - 0x30 := encodeAlnum_of_isDigit ((isDigit_iff _).mpr h3)
  simp only [locatorCode, e0, e1, e2, e3]
  omega

theorem locatorCode_le {l : Nat → Byte} (h : locatorOk l = true) : locatorCode l ≤ 32399 := by
  obtain ⟨h0, h1, h2, h3⟩ := (locatorOk_iff l).mp h
  have hcast := locatorCode_cast h
  omega

/-- Settles O39: every check passes, and the code is below 2^32, so LP_CODE holds it. -/
theorem srcLocpwrEncodesValidOperands : Obligations.SrcLocpwrEncodesValidOperands := by
  unfold Obligations.SrcLocpwrEncodesValidOperands
  intro s l hlen hfold h0 h1 h2 h3 hpower
  rw [hfold 0 (by decide)] at h0 ⊢
  rw [hfold 1 (by decide)] at h1 ⊢
  rw [hfold 2 (by decide)] at h2 ⊢
  rw [hfold 3 (by decide)] at h3 ⊢
  have hvalid : locatorOk (fun k => upper (locChar s k)) = true := (locatorOk_iff _).mpr ⟨h0, h1, h2, h3⟩
  have hok := (encodeLocatorPower_eq_ok_iff (locLength s) (locChar s) (powerValue s) _).mpr ⟨hlen, hvalid, hpower, rfl⟩
  refine ⟨_, exec_srcLocpwr_of_ok hok, rfl, ?_⟩
  have hle := locatorCode_le hvalid
  have hcast := locatorCode_cast hvalid
  rw [complete_lpCode, BitVec.toNat_ofNat, powerValue, Nat.mod_eq_of_lt (by omega), Nat.cast_add, Nat.cast_add, Nat.cast_mul,
    hcast]
  rfl

/-- Settles O41: the code is a locator code of at most 32399, times 128, plus 64, plus a power of at most 60. -/
theorem locatorPowerCodeBounds : Obligations.LocatorPowerCodeBounds := by
  unfold Obligations.LocatorPowerCodeBounds
  intro s t hexec herr
  obtain ⟨r, hr, hcode⟩ := exec_srcLocpwr_success hexec herr
  obtain ⟨-, hvalid, hpower, rfl⟩ := (encodeLocatorPower_eq_ok_iff _ _ _ _).mp hr
  have hle := locatorCode_le hvalid
  rw [powerValue] at hpower hcode
  have hnat : t.lpCode.toNat = locatorCode (fun k => upper (locChar s k)) * 128 + 64 + s.power.toNat := by
    rw [hcode, BitVec.toNat_ofNat, Nat.mod_eq_of_lt (by omega)]
  rw [BitVec.getLsbD, Nat.testBit_eq_decide_div_mod_eq, hnat, decide_eq_true_eq]
  omega

/-! ### Packing -/

/-- `combined` fits its 64 bits, so no bit of CS_CODE is lost (41_source_frame.md R135). -/
theorem toNat_packCombined (cs lp : Word) : (packCombined cs lp).toNat = cs.toNat * 2 ^ 22 ||| lp.toNat := by
  have hcs := cs.isLt
  rw [packCombined, BitVec.toNat_or, BitVec.toNat_shiftLeft, BitVec.toNat_setWidth_of_le (by decide),
    BitVec.toNat_setWidth_of_le (by decide), Nat.shiftLeft_eq, Nat.mod_eq_of_lt (by omega)]

theorem toNat_payloadCell_packPayload (cs lp : Word) {i : Nat} (hi : i < 50) :
    (payloadCell (packPayload cs lp) i).toNat = (Nat.testBit (cs.toNat * 2 ^ 22 ||| lp.toNat) (49 - i)).toNat := by
  rw [payloadCell_packPayload cs lp i hi, BitVec.toNat_setWidth_of_le (by decide), BitVec.toNat_ofBool, BitVec.getLsbD,
    toNat_packCombined]

/-- Settles O42: PACK writes `packPayload`, cell by cell. -/
theorem packWritesPayloadBits : Obligations.PackWritesPayloadBits := by
  unfold Obligations.PackWritesPayloadBits
  exact ⟨decode_encode .pack, fun s => ⟨packPayload s.csCode s.lpCode, rfl, fun _ hi => toNat_payloadCell_packPayload _ _ hi⟩⟩

/-- Settles O43: below 2^22 LP_CODE leaves bits [49:22] to CS_CODE, which leaves bits [21:0] to LP_CODE. -/
theorem packConcatenatesInRangeCodes : Obligations.PackConcatenatesInRangeCodes := by
  unfold Obligations.PackConcatenatesInRangeCodes
  intro s t _ hlp hexec
  obtain rfl : complete { s with payload := packPayload s.csCode s.lpCode } .none = t := by injection hexec
  rw [complete_payload]
  constructor
  · intro i hi
    have hlow : Nat.testBit s.lpCode.toNat (49 - i) = false :=
      Nat.testBit_lt_two_pow (hlp.trans_le (Nat.pow_le_pow_right (by decide) (by omega)))
    have hidx : 49 - i - 22 = 27 - i := by omega
    have hge : 22 ≤ 49 - i := by omega
    rw [toNat_payloadCell_packPayload _ _ (by omega), Nat.testBit_or, Nat.testBit_mul_two_pow, hlow, hidx, decide_eq_true hge,
      Bool.true_and, Bool.or_false, BitVec.getLsbD]
  · intro i hi
    have hidx : 49 - (28 + i) = 21 - i := by omega
    have hlt : ¬ 22 ≤ 21 - i := by omega
    rw [toNat_payloadCell_packPayload _ _ (by omega), Nat.testBit_or, Nat.testBit_mul_two_pow, hidx, decide_eq_false hlt,
      Bool.false_and, Bool.false_or, BitVec.getLsbD]

/-! ### Case folding of the locator and of the whole message -/

/-- The locator matters only as folded (41_source_frame.md R128). -/
theorem encodeLocatorPower_congr (m : Nat) {loc loc' : Nat → Byte} (h : ∀ k < 4, upper (loc k) = upper (loc' k)) (p : Nat) :
    encodeLocatorPower m loc p = encodeLocatorPower m loc' p := by
  simp [encodeLocatorPower, locatorOk, locatorCode, h]

/-- SRC_LOCPWR ends alike on operands that `encode_locator_power` does not tell apart. -/
theorem srcLocpwr_ends_alike {s s' : State} (h : encodeLocatorPower (locLength s') (locChar s') (powerValue s') =
      encodeLocatorPower (locLength s) (locChar s) (powerValue s)) :
    ∃ t t', exec .srcLocpwr s = .next t ∧ exec .srcLocpwr s' = .next t' ∧ t.status = t'.status ∧
      (t.status.err = .none → t.lpCode = t'.lpCode) := by
  cases hr : encodeLocatorPower (locLength s) (locChar s) (powerValue s) with
  | ok r => exact ⟨_, _, exec_srcLocpwr_of_ok hr, exec_srcLocpwr_of_ok (h.trans hr), rfl, fun _ => rfl⟩
  | error e =>
    refine ⟨_, _, exec_srcLocpwr_of_error hr, exec_srcLocpwr_of_error (h.trans hr), rfl, fun hnone => ?_⟩
    obtain rfl | rfl := encodeLocatorPower_error _ _ _ _ hr <;> cases hnone

/-- ENCODE's errors are those of the callsign, the locator and the power (45_encode_top.md R202). -/
theorem encodeMessage_error {n : Nat} {call : Nat → Byte} {m : Nat} {loc : Nat → Byte} {p : Nat} {e : ErrCode}
    (h : encodeMessage n call m loc p = .error e) : e = .callsign ∨ e = .locator ∨ e = .power := by
  simp only [encodeMessage, convEncode_packPayload] at h
  split at h
  · rename_i hcs
    injection h with h
    exact .inl (h ▸ encodeCallsign_error _ _ _ hcs)
  · split at h
    · rename_i hlp
      injection h with h
      exact .inr (h ▸ encodeLocatorPower_error _ _ _ _ hlp)
    · cases h

/-- ENCODE ends alike on messages that `encode_message` does not tell apart. -/
theorem encode_ends_alike {s s' : State}
    (h : encodeMessage (callLength s') (callChar s') (locLength s') (locChar s') (powerValue s') =
      encodeMessage (callLength s) (callChar s) (locLength s) (locChar s) (powerValue s)) :
    ∃ t t', exec .encode s = .next t ∧ exec .encode s' = .next t' ∧ t.status = t'.status ∧
      (t.status.err = .none → t.csCode = t'.csCode ∧ t.lpCode = t'.lpCode ∧ t.payload = t'.payload ∧ t.code = t'.code ∧
        t.ilv = t'.ilv ∧ t.sym = t'.sym) := by
  cases hr : encodeMessage (callLength s) (callChar s) (locLength s) (locChar s) (powerValue s) with
  | ok r =>
    exact ⟨_, _, exec_encode_of_ok hr, exec_encode_of_ok (h.trans hr), rfl, fun _ => ⟨rfl, rfl, rfl, rfl, rfl, rfl⟩⟩
  | error e =>
    refine ⟨_, _, exec_encode_of_error hr, exec_encode_of_error (h.trans hr), rfl, fun hnone => ?_⟩
    obtain rfl | rfl | rfl := encodeMessage_error hr <;> cases hnone

/-- Settles O58: the two encoders see a message only as folded, and ENCODE sees it only through them. -/
theorem locatorAndMessageCaseIsFolded : Obligations.LocatorAndMessageCaseIsFolded := by
  unfold Obligations.LocatorAndMessageCaseIsFolded
  intro s s' hlocLen hpower hloc
  have hlp : encodeLocatorPower (locLength s') (locChar s') (powerValue s') =
      encodeLocatorPower (locLength s) (locChar s) (powerValue s) := by
    rw [locLength, powerValue, hlocLen, hpower]
    exact encodeLocatorPower_congr _ (fun k hk => upper_eq_of_folded (hloc k hk)) _
  refine ⟨srcLocpwr_ends_alike hlp, fun hcallLen hcall => encode_ends_alike ?_⟩
  have hcs : encodeCallsign (callLength s') (callChar s') = encodeCallsign (callLength s) (callChar s) := by
    rw [callLength, hcallLen]
    exact encodeCallsign_congr _ fun k hk => upper_eq_of_folded (hcall k hk)
  rw [encodeMessage, hcs, hlp, encodeMessage]

end Sys2Proof.Proofs
end

section
/-! PROOFS. The family of 42_conv_encoder.md: parity, how CONV ends, the code bits it writes, linearity and the impulse
response. -/

namespace Sys2Proof.Proofs

open Sys2Proof.Machine Sys2Proof.Laws

/-! ### Parity -/

theorem parityBelow_eq_countP (x : Word) (n : Nat) :
    parityBelow x n = decide (((List.range n).countP fun k => x.getLsbD k) % 2 = 1) := by
  induction n with
  | zero => rfl
  | succ n ih =>
    rw [parityBelow, ih, List.range_succ, List.countP_append, List.countP_singleton]
    cases x.getLsbD n with
    | false => simp
    | true =>
      rw [Bool.true_xor, ← decide_not, if_pos rfl]
      exact decide_eq_decide.mpr (by omega)

/-- Settles O46: by induction on the number of bits folded. -/
theorem parityCountsOneBits : Obligations.ParityCountsOneBits := by
  unfold Obligations.ParityCountsOneBits
  exact fun x => parityBelow_eq_countP x 32

theorem parityBelow_xor (x y : Word) (n : Nat) : parityBelow (x ^^^ y) n = (parityBelow x n ^^ parityBelow y n) := by
  induction n with
  | zero => rfl
  | succ n ih =>
    simp only [parityBelow, ih, BitVec.getLsbD_xor, Bool.xor_assoc, Bool.xor_left_comm]

/-- A tap mask takes the XOR of two shift registers to the XOR of their parities. -/
theorem parity_xor_and (x y m : Word) : parity ((x ^^^ y) &&& m) = (parity (x &&& m) ^^ parity (y &&& m)) := by
  have hand : (x ^^^ y) &&& m = (x &&& m) ^^^ (y &&& m) := by
    ext k hk
    simp [Bool.and_xor_distrib_right]
  rw [hand]
  exact parityBelow_xor _ _ 32

theorem parityBelow_twoPow_and (m : Word) (k n : Nat) :
    parityBelow (BitVec.twoPow 32 k &&& m) n = (decide (k < n) && m.getLsbD k) := by
  induction n with
  | zero => rfl
  | succ n ih =>
    rw [parityBelow, ih, BitVec.getLsbD_and, BitVec.getLsbD_twoPow]
    rcases Nat.lt_trichotomy k n with h | rfl | h
    · simp [h, show k ≠ n by omega, show k < n + 1 by omega]
    · by_cases hk : k < 32
      · simp [-BitVec.getLsbD_eq_getElem, hk]
      · simp [-BitVec.getLsbD_eq_getElem, BitVec.getLsbD_of_ge m k (by omega)]
    · simp [show k ≠ n by omega, show ¬ k < n by omega, show ¬ k < n + 1 by omega]

/-- A shift register with one 1 bit shows the tap at its place (42_conv_encoder.md R168). -/
theorem parity_twoPow_and (m : Word) (k : Nat) : parity (BitVec.twoPow 32 k &&& m) = m.getLsbD k := by
  rw [parity, parityBelow_twoPow_and]
  by_cases hk : k < 32
  · rw [decide_eq_true hk, Bool.true_and]
  · rw [BitVec.getLsbD_of_ge m k (by omega), Bool.and_false]

/-! ### How CONV ends -/

theorem payloadBinary_iff (p : PayloadBuf) : payloadBinary p = true ↔ ∀ i < 50, payloadCell p i = 0 ∨ payloadCell p i = 1 := by
  simp [payloadBinary]

theorem exec_conv_of_binary {s : State} (h : payloadBinary s.payload = true) :
    exec .conv s = .next (complete { s with
      code := (convSteps (paddedBit s.payload) 81).2, sr := (convSteps (paddedBit s.payload) 81).1 } .none) := by
  rw [exec, execConv, convEncode, if_pos h]
  rfl

theorem exec_conv_of_not_binary {s : State} (h : ¬ payloadBinary s.payload = true) :
    exec .conv s = .next (complete s .convBitSet) := by
  rw [exec, execConv, convEncode, if_neg h]
  rfl

/-- Settles O45: `payloadBinary` refuses the payload for that cell. -/
theorem convRejectsNonBinaryPayload : Obligations.ConvRejectsNonBinaryPayload := by
  unfold Obligations.ConvRejectsNonBinaryPayload
  intro s i hi hzero hone
  exact exec_conv_of_not_binary fun hbinary => ((payloadBinary_iff _).mp hbinary i hi).elim hzero hone

/-! ### The code bits, step by step -/

theorem getLsbD_code_even (u : Nat → Bool) {t : Nat} (ht : t < 81) :
    (convSteps u 81).2.getLsbD (2 * t) = parity ((convSteps u (t + 1)).1 &&& poly1) := by
  rw [(convSteps_code u 81 le_rfl t).1, decide_eq_true ht, Bool.true_and]

theorem getLsbD_code_odd (u : Nat → Bool) {t : Nat} (ht : t < 81) :
    (convSteps u 81).2.getLsbD (2 * t + 1) = parity ((convSteps u (t + 1)).1 &&& poly2) := by
  rw [(convSteps_code u 81 le_rfl t).2, decide_eq_true ht, Bool.true_and]

theorem paddedBit_eq_decide (p : PayloadBuf) (t : Nat) :
    paddedBit p t = (decide (t < 50) && decide (payloadCell p t = 1)) := rfl

/-- The bits of SR after step t determine it (42_conv_encoder.md R164). -/
theorem eq_convSteps_sr {u : Nat → Bool} {t : Nat} {w : Word} (h : ∀ j < 32, w.getLsbD j = (decide (j ≤ t) && u (t - j))) :
    w = (convSteps u (t + 1)).1 := by
  apply BitVec.eq_of_getLsbD_eq
  intro j hj
  simp only [h j hj, convSteps_sr u (t + 1) j hj, Nat.add_sub_cancel, Nat.lt_succ_iff]

/-- Settles O44: the given word is SR after step t, and the code bits of step t are its parities. -/
theorem convWritesCodeBits : Obligations.ConvWritesCodeBits := by
  unfold Obligations.ConvWritesCodeBits
  intro s hbinary
  refine ⟨_, _, exec_conv_of_binary ((payloadBinary_iff _).mpr hbinary), fun t ht w hw => ?_⟩
  obtain rfl : w = (convSteps (paddedBit s.payload) (t + 1)).1 :=
    eq_convSteps_sr fun j hj => by rw [hw j hj, paddedBit_eq_decide, Bool.and_assoc]
  exact ⟨getLsbD_code_even _ ht, getLsbD_code_odd _ ht⟩

/-! ### Linearity -/

theorem payloadCell_xor (p q : PayloadBuf) (i : Nat) : payloadCell (p ^^^ q) i = payloadCell p i ^^^ payloadCell q i :=
  BitVec.extractLsb'_xor

/-- The XOR of two binary cells is binary, and is 1 when exactly one of them is. -/
theorem binary_xor {a b : Byte} (ha : a = 0 ∨ a = 1) (hb : b = 0 ∨ b = 1) :
    (a ^^^ b = 0 ∨ a ^^^ b = 1) ∧ decide (a ^^^ b = 1) = (decide (a = 1) ^^ decide (b = 1)) := by
  obtain rfl | rfl := ha <;> obtain rfl | rfl := hb <;> decide

section
variable {p q : PayloadBuf} (hp : payloadBinary p = true) (hq : payloadBinary q = true)
include hp hq

theorem payloadBinary_xor : payloadBinary (p ^^^ q) = true := by
  rw [payloadBinary_iff] at *
  intro i hi
  rw [payloadCell_xor]
  exact (binary_xor (hp i hi) (hq i hi)).1

theorem paddedBit_xor (t : Nat) : paddedBit (p ^^^ q) t = (paddedBit p t ^^ paddedBit q t) := by
  rw [payloadBinary_iff] at hp hq
  simp only [paddedBit_eq_decide]
  by_cases ht : t < 50
  · rw [decide_eq_true ht, payloadCell_xor, Bool.true_and, Bool.true_and, Bool.true_and]
    exact (binary_xor (hp t ht) (hq t ht)).2
  · simp [ht]

end

section
variable {u v w : Nat → Bool} (h : ∀ t, w t = (u t ^^ v t))
include h

/-- Shifting is linear in the input bits (42_conv_encoder.md R168). -/
theorem convSteps_sr_xor (n : Nat) : (convSteps w n).1 = (convSteps u n).1 ^^^ (convSteps v n).1 := by
  apply BitVec.eq_of_getLsbD_eq
  intro j hj
  rw [BitVec.getLsbD_xor, convSteps_sr w n j hj, convSteps_sr u n j hj, convSteps_sr v n j hj, h, Bool.and_xor_distrib_left]

/-- The code is linear in the input bits (42_conv_encoder.md R168). -/
theorem convSteps_code_xor : (convSteps w 81).2 = (convSteps u 81).2 ^^^ (convSteps v 81).2 := by
  apply BitVec.eq_of_getLsbD_eq
  intro j hj
  obtain ⟨t, rfl | rfl⟩ := Nat.even_or_odd' j
  · have ht : t < 81 := by omega
    rw [BitVec.getLsbD_xor, getLsbD_code_even w ht, getLsbD_code_even u ht, getLsbD_code_even v ht,
      convSteps_sr_xor h, parity_xor_and]
  · have ht : t < 81 := by omega
    rw [BitVec.getLsbD_xor, getLsbD_code_odd w ht, getLsbD_code_odd u ht, getLsbD_code_odd v ht,
      convSteps_sr_xor h, parity_xor_and]

end

/-- Settles O47: the input bits, SR and the parities are each linear. -/
theorem convIsLinear : Obligations.ConvIsLinear := by
  unfold Obligations.ConvIsLinear
  intro s1 s2 s3 h1 h2 hxor
  rw [← payloadBinary_iff] at h1 h2
  have h3 : payloadBinary s3.payload = true := hxor ▸ payloadBinary_xor h1 h2
  refine ⟨_, _, _, exec_conv_of_binary h1, exec_conv_of_binary h2, exec_conv_of_binary h3, rfl, rfl, rfl, ?_⟩
  simp only [complete_code]
  exact convSteps_code_xor fun t => by rw [hxor, paddedBit_xor h1 h2]

/-! ### The impulse response -/

/-- The input bits that are 1 at step n alone. -/
def impulse (n t : Nat) : Bool := decide (t = n)

theorem paddedBit_eq_impulse {p : PayloadBuf} {n : Nat} (hn : n < 50)
    (h : ∀ i < 50, payloadCell p i = if i = n then 1 else 0) : paddedBit p = impulse n := by
  funext t
  rw [paddedBit_eq_decide, impulse]
  by_cases ht : t < 50
  · rw [h t ht]
    by_cases htn : t = n <;> simp [hn, ht, htn]
  · simp [ht, show t ≠ n by omega]

/-- The one bit travels up SR from bit 0, and out of it after 32 steps (42_conv_encoder.md R164, R168). -/
theorem convSteps_sr_impulse (n t : Nat) :
    (convSteps (impulse n) (t + 1)).1 = if n ≤ t then BitVec.twoPow 32 (t - n) else 0 := by
  symm
  apply eq_convSteps_sr
  intro j hj
  by_cases hnt : n ≤ t
  · rw [if_pos hnt, BitVec.getLsbD_twoPow, impulse, ← Bool.decide_and, ← Bool.decide_and]
    exact decide_eq_decide.mpr (by omega)
  · rw [if_neg hnt, impulse, decide_eq_false (show t - j ≠ n by omega), Bool.and_false]
    exact BitVec.getLsbD_zero

theorem parity_sr_impulse (m : Word) (n t : Nat) :
    parity ((convSteps (impulse n) (t + 1)).1 &&& m) = (decide (n ≤ t) && m.getLsbD (t - n)) := by
  rw [convSteps_sr_impulse]
  by_cases hnt : n ≤ t
  · rw [if_pos hnt, parity_twoPow_and, decide_eq_true hnt, Bool.true_and]
  · rw [if_neg hnt, decide_eq_false hnt, Bool.false_and, BitVec.ofNat_eq_ofNat, BitVec.zero_and]
    rfl

/-- The taps stand at steps n to n + 31. -/
theorem tap_outside_impulse (m : Word) {n t : Nat} (h : t < n ∨ n + 32 ≤ t) : (decide (n ≤ t) && m.getLsbD (t - n)) = false := by
  obtain h | h := h
  · rw [decide_eq_false (by omega), Bool.false_and]
  · rw [BitVec.getLsbD_of_ge m (t - n) (by omega), Bool.and_false]

/-- Settles O48: SR holds the one bit at the place of its age, so each parity is a tap of its polynomial. -/
theorem convImpulseShowsThePolynomials : Obligations.ConvImpulseShowsThePolynomials := by
  unfold Obligations.ConvImpulseShowsThePolynomials
  intro s n hn himpulse
  have hbinary : payloadBinary s.payload = true := (payloadBinary_iff _).mpr fun i hi => by
    rw [himpulse i hi]
    exact (ite_eq_or_eq _ _ _).symm
  refine ⟨_, exec_conv_of_binary hbinary, rfl, ?_⟩
  rw [complete_code, paddedBit_eq_impulse hn himpulse]
  constructor
  · intro k hk
    have ht : n + k < 81 := by omega
    rw [getLsbD_code_even _ ht, getLsbD_code_odd _ ht, parity_sr_impulse, parity_sr_impulse, decide_eq_true (Nat.le_add_right n k),
      Nat.add_sub_cancel_left, Bool.true_and, Bool.true_and]
    exact ⟨rfl, rfl⟩
  · intro j hj hout
    obtain ⟨t, rfl | rfl⟩ := Nat.even_or_odd' j
    · rw [getLsbD_code_even _ (by omega), parity_sr_impulse]
      exact tap_outside_impulse _ (by omega)
    · rw [getLsbD_code_odd _ (by omega), parity_sr_impulse]
      exact tap_outside_impulse _ (by omega)

end Sys2Proof.Proofs
end

section
/-! PROOFS. The family of 43_interleaver.md: the 8-bit reversal, PERM as a permutation of 0..161, and what INTERLEAVE writes. -/

namespace Sys2Proof.Proofs

open Sys2Proof.Machine Sys2Proof.Laws

/-! ### The 8-bit reversal -/

theorem getLsbD_rev8 (b : Byte) {k : Nat} (hk : k < 8) : (rev8 b).getLsbD k = b.getLsbD (7 - k) := by
  rw [rev8, getLsbD_bitsOfFn, decide_eq_true hk, Bool.true_and]

theorem rev8_rev8 (b : Byte) : rev8 (rev8 b) = b := by
  apply BitVec.eq_of_getLsbD_eq
  intro k hk
  rw [getLsbD_rev8 _ hk, getLsbD_rev8 _ (by omega), Nat.sub_sub_self (by omega)]

/-- `rev8` on the numbers 0..255, as `permList` maps it over them. -/
def revNat (b : Nat) : Nat := (rev8 (BitVec.ofNat 8 b)).toNat

theorem revNat_lt (b : Nat) : revNat b < 256 := (rev8 (BitVec.ofNat 8 b)).isLt

theorem revNat_revNat {b : Nat} (hb : b < 256) : revNat (revNat b) = b := by
  rw [revNat, revNat, BitVec.ofNat_toNat, BitVec.setWidth_eq, rev8_rev8, BitVec.toNat_ofNat, Nat.mod_eq_of_lt hb]

/-! ### PERM is a permutation of 0..161, in the order of the reversals -/

theorem permList_eq : permList = ((List.range 256).map revNat).filter (· < 162) := rfl

theorem mem_permList_iff {j : Nat} : j ∈ permList ↔ j < 162 := by
  rw [permList_eq, List.mem_filter, decide_eq_true_eq, and_iff_right_iff_imp]
  intro hj
  exact List.mem_map.mpr ⟨revNat j, List.mem_range.mpr (revNat_lt j), revNat_revNat (by omega)⟩

/-- The reversals of the entries are the bytes that `permList` runs through from 0 up. -/
theorem permList_pairwise_revNat : permList.Pairwise fun i j => revNat i < revNat j := by
  rw [permList_eq]
  apply List.Pairwise.filter
  rw [List.pairwise_map]
  refine List.pairwise_lt_range.imp_of_mem fun ha hb hlt => ?_
  rwa [revNat_revNat (List.mem_range.mp ha), revNat_revNat (List.mem_range.mp hb)]

theorem permList_nodup : permList.Nodup :=
  permList_pairwise_revNat.imp fun hlt heq => hlt.ne (congrArg revNat heq)

theorem permList_perm_range : permList.Perm (List.range 162) :=
  (List.perm_ext_iff_of_nodup permList_nodup List.nodup_range).mpr fun _ => mem_permList_iff.trans List.mem_range.symm

theorem length_permList : permList.length = 162 :=
  permList_perm_range.length_eq.trans List.length_range

theorem permList_getElem?_eq_some_iff {p j : Nat} (hp : p < 162) : permList[p]? = some j ↔ perm p = j := by
  rw [perm, List.getD_eq_getElem?_getD, List.getElem?_eq_getElem (by rwa [length_permList]), Option.getD_some, Option.some_inj]

theorem perm_eq_getElem {p : Nat} (hp : p < 162) : perm p = permList[p]'(by rwa [length_permList]) :=
  (permList_getElem?_eq_some_iff hp).mp (List.getElem?_eq_getElem _)

theorem perm_lt {p : Nat} (hp : p < 162) : perm p < 162 := by
  rw [perm_eq_getElem hp]
  exact mem_permList_iff.mp (List.getElem_mem _)

theorem exists_perm_eq {j : Nat} (hj : j < 162) : ∃ p < 162, perm p = j := by
  obtain ⟨p, hp, rfl⟩ := List.mem_iff_getElem.mp (mem_permList_iff.mpr hj)
  rw [length_permList] at hp
  exact ⟨p, hp, perm_eq_getElem hp⟩

theorem perm_inj {p q : Nat} (hp : p < 162) (hq : q < 162) : perm p = perm q ↔ p = q := by
  rw [perm_eq_getElem hp, perm_eq_getElem hq, permList_nodup.getElem_inj_iff]

theorem revNat_perm_lt {p q : Nat} (hpq : p < q) (hq : q < 162) : revNat (perm p) < revNat (perm q) := by
  rw [perm_eq_getElem (hpq.trans hq), perm_eq_getElem hq]
  exact List.pairwise_iff_getElem.mp permList_pairwise_revNat p q _ _ hpq

theorem map_perm_range : (List.range 162).map perm = permList := by
  apply List.ext_getElem
  · rw [List.length_map, List.length_range, length_permList]
  · intro p hp _
    rw [List.length_map, List.length_range] at hp
    rw [List.getElem_map, List.getElem_range, perm_eq_getElem hp]

/-- Settles O49: the reversal undoes itself, so PERM keeps of the ascending bytes those whose reversal is below 162. -/
theorem permIsTheBitReversalOrder : Obligations.PermIsTheBitReversalOrder := by
  unfold Obligations.PermIsTheBitReversalOrder
  exact ⟨fun b _ => getLsbD_rev8 b, length_permList, fun _ => perm_lt, fun _ => exists_perm_eq, fun _ _ => revNat_perm_lt⟩

/-! ### What INTERLEAVE writes -/

/-- PERM has each target once, so no other code bit reaches the target of bit p (43_interleaver.md R183). -/
theorem getLsbD_interleaveBits_perm (code : BitBuf) {p : Nat} (hp : p < 162) :
    (interleaveBits code).getLsbD (perm p) = code.getLsbD p := by
  rw [interleaveBits, getLsbD_scatterBits _ _ _ _ (fun _ => mem_permList_iff.mp), length_permList, Bool.eq_iff_iff]
  simp only [BitVec.ofNat_eq_ofNat, BitVec.getLsbD_zero, Bool.false_or, Nat.zero_add, List.any_eq_true, List.mem_range,
    Bool.and_eq_true, decide_eq_true_eq]
  constructor
  · rintro ⟨k, hk, htarget, hbit⟩
    rwa [← (perm_inj hk hp).mp ((permList_getElem?_eq_some_iff hk).mp htarget)]
  · exact fun hbit => ⟨p, hp, (permList_getElem?_eq_some_iff hp).mpr rfl, hbit⟩

theorem exec_interleave (s : State) :
    exec .interleave s = .next (complete { s with ilv := interleaveBits s.code } .none) := rfl

/-- Settles O50: each code bit stands at its target. -/
theorem interleavePermutesCode : Obligations.InterleavePermutesCode := by
  unfold Obligations.InterleavePermutesCode
  exact ⟨decode_encode .interleave, fun s =>
    ⟨interleaveBits s.code, exec_interleave s, fun _ => getLsbD_interleaveBits_perm s.code⟩⟩

/-- Counting over 0..161 is counting along PERM. -/
theorem countP_interleaveBits (code : BitBuf) :
    (List.range 162).countP (interleaveBits code).getLsbD = (List.range 162).countP code.getLsbD := by
  rw [← permList_perm_range.countP_eq, ← map_perm_range, List.countP_map]
  apply List.countP_congr
  intro p hp
  rw [Function.comp_apply, getLsbD_interleaveBits_perm code (List.mem_range.mp hp)]

theorem getLsbD_interleaveBits_of_single {code : BitBuf} {p j : Nat} (hp : p < 162)
    (hcode : ∀ q < 162, code.getLsbD q = decide (q = p)) (hj : j < 162) :
    (interleaveBits code).getLsbD j = decide (j = perm p) := by
  obtain ⟨q, hq, rfl⟩ := exists_perm_eq hj
  rw [getLsbD_interleaveBits_perm code hq, hcode q hq]
  exact decide_eq_decide.mpr (perm_inj hq hp).symm

/-- Settles O51: the targets are 0..161, each once. -/
theorem interleaveKeepsOneBits : Obligations.InterleaveKeepsOneBits := by
  unfold Obligations.InterleaveKeepsOneBits
  intro s t h
  cases (exec_interleave s).symm.trans h
  exact ⟨countP_interleaveBits s.code, fun _ hp hcode _ hj => getLsbD_interleaveBits_of_single hp hcode hj⟩

end Sys2Proof.Proofs
end

section
/-! PROOFS. The family of 44_frame_assembler.md: the SYNC table and what ASSEMBLE writes. -/

namespace Sys2Proof.Proofs

open Sys2Proof.Machine Sys2Proof.Laws

/-- SYNC[i] is 0 or 1, so the sum fits the two bits of its cell (44_frame_assembler.md R191). -/
theorem toNat_symCell_assembleSymbols (ilv : BitBuf) {i : Nat} (hi : i < 162) :
    (symCell (assembleSymbols ilv) i).toNat = syncAt i + 2 * (ilv.getLsbD i).toNat := by
  have hsync := syncAt_le i
  have hilv := Bool.toNat_le (ilv.getLsbD i)
  rw [symCell_assembleSymbols ilv i hi, BitVec.toNat_ofNat]
  omega

theorem exec_assemble (s : State) :
    exec .assemble s = .next (complete { s with sym := assembleSymbols s.ilv } .none) := rfl

theorem length_syncList : syncList.length = 162 := by decide +kernel

theorem sum_syncList : syncList.sum = 63 := by decide +kernel

/-- Settles O52: the table of R190 is the model's SYNC list, and each cell holds its sum without overflow. -/
theorem assembleMergesSync : Obligations.AssembleMergesSync := by
  unfold Obligations.AssembleMergesSync
  intro sync
  have hsync : sync = syncList := rfl
  rw [hsync]
  refine ⟨decode_encode .assemble, length_syncList, sum_syncList, fun _ _ => rfl, fun s =>
    ⟨assembleSymbols s.ilv, exec_assemble s, fun i hi => ⟨toNat_symCell_assembleSymbols s.ilv hi, ?_⟩⟩⟩
  exact Nat.le_of_lt_succ (symCell (assembleSymbols s.ilv) i).isLt

end Sys2Proof.Proofs
end

section
/-! PROOFS. The family of 45_encode_top.md: what the commands read of their operands, and ENCODE as the stages in order. -/

namespace Sys2Proof.Proofs

open Sys2Proof.Machine Sys2Proof.Laws

/-! ### What the encoders read of their operands -/

/-- Characters at and past the length are not read (41_source_frame.md R120). -/
theorem padChar_congr {n k : Nat} {call call' : Nat → Byte} (h : k < n → call k = call' k) :
    padChar n call k = padChar n call' k := by
  unfold padChar
  split_ifs with hk
  · rw [h hk]
  · rfl

theorem encodeCallsign_of_sameText {n : Nat} {call call' : Nat → Byte} (h : ∀ k, k < n → k < 6 → call k = call' k) :
    encodeCallsign n call = encodeCallsign n call' := by
  have hchar : ∀ k < 6, padChar n call k = padChar n call' k := fun k hk => padChar_congr fun hn => h k hn hk
  have hpad : padCallsign n call = padCallsign n call' := by simp [padCallsign, hchar]
  rw [encodeCallsign, hpad, encodeCallsign]

/-- A locator of another length than 4 is rejected unread (41_source_frame.md R128). -/
theorem encodeLocatorPower_of_sameText {m : Nat} {loc loc' : Nat → Byte} (h : m = 4 → ∀ k < 4, loc k = loc' k) (p : Nat) :
    encodeLocatorPower m loc p = encodeLocatorPower m loc' p := by
  by_cases hm : m = 4
  · exact encodeLocatorPower_congr m (fun k hk => congrArg upper (h hm k hk)) p
  · rw [encodeLocatorPower, if_pos hm, encodeLocatorPower, if_pos hm]

section
variable {s s' : State}

theorem encodeCallsign_of_sameOperands (hlen : s.callLen = s'.callLen)
    (hchar : ∀ k, k < s.callLen.toNat → k < 6 → callChar s k = callChar s' k) :
    encodeCallsign (callLength s') (callChar s') = encodeCallsign (callLength s) (callChar s) := by
  rw [callLength, ← hlen]
  exact (encodeCallsign_of_sameText hchar).symm

theorem encodeLocatorPower_of_sameOperands (hlen : s.locLen = s'.locLen)
    (hchar : s.locLen.toNat = 4 → ∀ k < 4, locChar s k = locChar s' k) (hpower : s.power = s'.power) :
    encodeLocatorPower (locLength s') (locChar s') (powerValue s') =
      encodeLocatorPower (locLength s) (locChar s) (powerValue s) := by
  rw [locLength, powerValue, ← hlen, ← hpower]
  exact (encodeLocatorPower_of_sameText hchar _).symm

/-- CONV ends alike on the same payload, whatever SR holds. -/
theorem conv_ends_alike (h : s.payload = s'.payload) :
    ∃ t t', exec .conv s = .next t ∧ exec .conv s' = .next t' ∧ t.status = t'.status ∧
      (t.status.err = .none → t.code = t'.code) := by
  by_cases hbinary : payloadBinary s.payload = true
  · refine ⟨_, _, exec_conv_of_binary hbinary, exec_conv_of_binary (h ▸ hbinary), rfl, fun _ => ?_⟩
    rw [complete_code, complete_code, h]
  · exact ⟨_, _, exec_conv_of_not_binary hbinary, exec_conv_of_not_binary (h ▸ hbinary), rfl, nofun⟩

end

/-! ### The stage commands that cannot fail -/

theorem exec_pack (s : State) :
    exec .pack s = .next (complete { s with payload := packPayload s.csCode s.lpCode } .none) := rfl

theorem exec_chrAlnum (s : State) :
    exec .chrAlnum s = .next (complete { s with chrOut := BitVec.ofNat 6 (encodeAlnum s.chrIn) } .none) := rfl

theorem exec_chrAlpha (s : State) :
    exec .chrAlpha s = .next (complete { s with chrOut := BitVec.ofNat 6 (encodeAlpha s.chrIn) } .none) := rfl

/-- Settles O29: each command ends by a function of its operands; those that cannot fail always with ERR = 0. -/
theorem stageCommandsDependOnlyOnOperands : Obligations.StageCommandsDependOnlyOnOperands := by
  unfold Obligations.StageCommandsDependOnlyOnOperands
  intro s s'
  refine ⟨fun hlen hchar => srcCallsign_ends_alike (encodeCallsign_of_sameOperands hlen hchar),
    fun hlen hchar hpower => srcLocpwr_ends_alike (encodeLocatorPower_of_sameOperands hlen hchar hpower),
    fun hcs hlp => ?pack, conv_ends_alike, fun hcode => ?interleave, fun hilv => ?assemble,
    fun hchr => ⟨?chrAlnum, ?chrAlpha⟩⟩
  case pack => exact ⟨_, _, exec_pack s, exec_pack s', rfl, by simp only [complete_payload, hcs, hlp]⟩
  case interleave => exact ⟨_, _, exec_interleave s, exec_interleave s', rfl, by simp only [complete_ilv, hcode]⟩
  case assemble => exact ⟨_, _, exec_assemble s, exec_assemble s', rfl, by simp only [complete_sym, hilv]⟩
  case chrAlnum => exact ⟨_, _, exec_chrAlnum s, exec_chrAlnum s', rfl, by simp only [complete_chrOut, hchr]⟩
  case chrAlpha => exact ⟨_, _, exec_chrAlpha s, exec_chrAlpha s', rfl, by simp only [complete_chrOut, hchr]⟩

/-! ### ENCODE is a function of the message -/

/-- Settles O57: ENCODE sees the operands only through the two source encoders. -/
theorem encodeDependsOnlyOnTheMessage : Obligations.EncodeDependsOnlyOnTheMessage := by
  unfold Obligations.EncodeDependsOnlyOnTheMessage
  intro s s' hcallLen hcall hlocLen hloc hpower
  apply encode_ends_alike
  rw [encodeMessage, encodeCallsign_of_sameOperands hcallLen hcall, encodeLocatorPower_of_sameOperands hlocLen hloc hpower,
    encodeMessage]

/-! ### ENCODE cannot end in ConvolutionBitSetError -/

/-- A state whose PAYLOAD[0] is 2, neither 0 nor 1. -/
def payloadCellTwo : State := { State.reset with payload := 2 }

/-- Settles O56: inside ENCODE the convolution sees only what `pack` emits, which is binary; CONV sees what the host wrote. -/
theorem encodeNeverReportsConvError : Obligations.EncodeNeverReportsConvError := by
  unfold Obligations.EncodeNeverReportsConvError
  constructor
  · intro s t hexec
    cases hr : encodeMessage (callLength s) (callChar s) (locLength s) (locChar s) (powerValue s) with
    | ok r =>
      cases (exec_encode_of_ok hr).symm.trans hexec
      exact nofun
    | error e =>
      cases (exec_encode_of_error hr).symm.trans hexec
      obtain rfl | rfl | rfl := encodeMessage_error hr <;> exact nofun
  · have hzero : payloadCell payloadCellTwo.payload 0 ≠ 0 := by decide +kernel
    have hone : payloadCell payloadCellTwo.payload 0 ≠ 1 := by decide +kernel
    exact ⟨payloadCellTwo, _, convRejectsNonBinaryPayload payloadCellTwo 0 (by decide) hzero hone, rfl⟩

/-! ### ENCODE of a valid message, stage by stage -/

/-- What the stages after the two source encoders make of the codes `cs` and `lp` (45_encode_top.md R200). -/
def messageOfCodes (cs lp : Word) : EncodedMessage where
  cs := cs
  lp := lp
  pl := packPayload cs lp
  code := (convSteps (paddedBit (packPayload cs lp)) 81).2
  ilv := interleaveBits (convSteps (paddedBit (packPayload cs lp)) 81).2
  sym := assembleSymbols (interleaveBits (convSteps (paddedBit (packPayload cs lp)) 81).2)
  sr := (convSteps (paddedBit (packPayload cs lp)) 81).1

theorem encodeMessage_of_ok {n m p cs lp : Nat} {call loc : Nat → Byte} (hcs : encodeCallsign n call = .ok cs)
    (hlp : encodeLocatorPower m loc p = .ok lp) :
    encodeMessage n call m loc p = .ok (messageOfCodes (BitVec.ofNat 32 cs) (BitVec.ofNat 32 lp)) := by
  simp only [encodeMessage, hcs, hlp, convEncode_packPayload, messageOfCodes]

/-- The registers ENCODE writes, holding the message `r` (45_encode_top.md R201), and SR (log 3). -/
def storeMessage (s : State) (r : EncodedMessage) : State :=
  { s with csCode := r.cs, lpCode := r.lp, payload := r.pl, code := r.code, ilv := r.ilv, sym := r.sym, sr := r.sr }

theorem exec_encode_of_valid {s : State} {cs lp : Nat} (hcs : encodeCallsign (callLength s) (callChar s) = .ok cs)
    (hlp : encodeLocatorPower (locLength s) (locChar s) (powerValue s) = .ok lp) :
    exec .encode s = .next (complete (storeMessage s (messageOfCodes (BitVec.ofNat 32 cs) (BitVec.ofNat 32 lp))) .none) :=
  exec_encode_of_ok (encodeMessage_of_ok hcs hlp)

/-- PACK, CONV, INTERLEAVE and ASSEMBLE in order write the message of the codes that CS_CODE and LP_CODE hold; CONV cannot fail
there (45_encode_top.md R202). -/
theorem stages_store_messageOfCodes (s : State) :
    ∃ t3 t4 t5, exec .pack s = .next t3 ∧ exec .conv t3 = .next t4 ∧ exec .interleave t4 = .next t5 ∧
      exec .assemble t5 = .next (complete (storeMessage s (messageOfCodes s.csCode s.lpCode)) .none) := by
  refine ⟨_, _, _, exec_pack s, exec_conv_of_binary (payloadBinary_packPayload _ _), exec_interleave _, ?_⟩
  simp only [exec_assemble, complete, storeMessage, messageOfCodes]

/-- Settles O54: SRC_CALLSIGN and SRC_LOCPWR leave the two codes in place, and the other four stages start from those. -/
theorem encodeIsTheStagePipeline : Obligations.EncodeIsTheStagePipeline := by
  unfold Obligations.EncodeIsTheStagePipeline
  intro s t1 t2 h1 herr1 h2 herr2
  obtain ⟨cs, hcs, -⟩ := exec_srcCallsign_success h1 herr1
  cases (exec_srcCallsign_of_ok hcs).symm.trans h1
  obtain ⟨lp, hlp, -⟩ := exec_srcLocpwr_success h2 herr2
  cases (exec_srcLocpwr_of_ok hlp).symm.trans h2
  obtain ⟨t3, t4, t5, hpack, hconv, hinterleave, hassemble⟩ := stages_store_messageOfCodes
    (complete { complete { s with csCode := BitVec.ofNat 32 cs } .none with lpCode := BitVec.ofNat 32 lp } .none)
  exact ⟨t3, t4, t5, _, hpack, hconv, hinterleave, hassemble, exec_encode_of_valid (s := s) hcs hlp⟩

/-- CS_CODE holds the callsign code without loss (41_source_frame.md R126). -/
theorem encodeCallsign_lt {n r : Nat} {call : Nat → Byte} (h : encodeCallsign n call = .ok r) : r < 2 ^ 32 := by
  obtain ⟨-, hprefix, -, rfl⟩ := (encodeCallsign_eq_ok_iff _ _ _).mp h
  have hle := mixedRadix_le _ hprefix
  omega

/-- LP_CODE holds the locator/power code without loss (41_source_frame.md R133). -/
theorem encodeLocatorPower_lt {m p r : Nat} {loc : Nat → Byte} (h : encodeLocatorPower m loc p = .ok r) : r < 2 ^ 32 := by
  obtain ⟨-, hvalid, hpower, rfl⟩ := (encodeLocatorPower_eq_ok_iff _ _ _ _).mp h
  have hle := locatorCode_le hvalid
  omega

/-- The code bits of step n are the parities of SR after it, which holds the payload's cells back from cell n
(42_conv_encoder.md R164, R165). -/
theorem code_of_payload_sr {p : PayloadBuf} {n : Nat} {w : Word} (hn : n < 81)
    (hw : ∀ j < 32, w.getLsbD j = (decide (j ≤ n) && decide (n - j < 50) && decide (payloadCell p (n - j) = 1))) :
    (convSteps (paddedBit p) 81).2.getLsbD (2 * n) = parity (w &&& poly1) ∧
    (convSteps (paddedBit p) 81).2.getLsbD (2 * n + 1) = parity (w &&& poly2) := by
  obtain rfl : w = (convSteps (paddedBit p) (n + 1)).1 :=
    eq_convSteps_sr fun j hj => by rw [hw j hj, paddedBit_eq_decide, Bool.and_assoc]
  exact ⟨getLsbD_code_even _ hn, getLsbD_code_odd _ hn⟩

/-- Settles O53: each clause is what the stage before it left, the two codes being below 2^32. -/
theorem encodeWritesEveryStage : Obligations.EncodeWritesEveryStage := by
  unfold Obligations.EncodeWritesEveryStage
  intro s cs lp hcs hlp
  have hcsCode : (BitVec.ofNat 32 cs).toNat = cs := Nat.mod_eq_of_lt (encodeCallsign_lt hcs)
  have hlpCode : (BitVec.ofNat 32 lp).toNat = lp := Nat.mod_eq_of_lt (encodeLocatorPower_lt hlp)
  refine ⟨_, exec_encode_of_valid hcs hlp, rfl, hcsCode, hlpCode, fun i hi => ?payload, fun n hn w hw => ?code,
    fun p hp => ?ilv, fun i hi => ?sym⟩
  case payload =>
    have hcell := toNat_payloadCell_packPayload (BitVec.ofNat 32 cs) (BitVec.ofNat 32 lp) hi
    rwa [hcsCode, hlpCode] at hcell
  case code => exact code_of_payload_sr hn hw
  case ilv =>
    simp only [complete_ilv, complete_code, storeMessage, messageOfCodes]
    exact getLsbD_interleaveBits_perm _ hp
  case sym => exact toNat_symCell_assembleSymbols _ hi

end Sys2Proof.Proofs
end

section
/-! PROOFS. The family of 60_exceptions.md: the causes of HOSTFAULT, the error ending of every command, IllegalCommand, and the
errors of SRC_CALLSIGN, SRC_LOCPWR and ENCODE in their order. -/

namespace Sys2Proof.Proofs

open Sys2Proof.Machine Sys2Proof.Laws

/-! ### The core's turn -/

theorem coreStep_idle {s : State} (h : s.pend = none) : coreStep s = .next s := by
  simp only [coreStep, h]

theorem completionStep_opcodeOf (i : Instr) (s : State) : completionStep (opcodeOf i) s = exec i s := by
  simp only [completionStep, decodeOp_opcodeOf]

/-- A reserved opcode completes with IllegalCommand (60_exceptions.md R215). -/
theorem completionStep_reserved {op : Opcode} (h : op.toNat = 0 ∨ 10 ≤ op.toNat) (s : State) :
    completionStep op s = .next (complete s .illegal) := by
  simp only [completionStep, (decodeOp_eq_error_iff op op).mpr ⟨h, rfl⟩]
  rfl

theorem coreStep_reserved {s : State} {op : Opcode} (hpend : s.pend = some op) (h : op.toNat = 0 ∨ 10 ≤ op.toNat) :
    coreStep s = .next (complete s .illegal) := by
  simp only [coreStep, hpend, completionStep_reserved h]

theorem step_coreTurn {s : State} {rest : List HostEvent} (hf : s.hostFault = false) (he : s.events = .coreTurn :: rest) :
    step s = coreStep (takeEvent s rest) :=
  step_event s .coreTurn rest hf he

/-- ERR = 0xF with DONE = 1, as the host reads it (10_state.md R25, R26). -/
theorem statusCompleted_illegal_word : (statusCompleted .illegal).word = 0xF2 := by decide

/-- Settles O6: with nothing pending the core's turn gives the state back. -/
theorem idleBlockKeepsItsState : Obligations.IdleBlockKeepsItsState := by
  unfold Obligations.IdleBlockKeepsItsState
  intro s hf hpend
  exact ⟨fun hnil => (step_noEvent s hf hnil).trans (coreStep_idle hpend),
    fun rest he => (step_coreTurn hf he).trans (coreStep_idle (s := takeEvent s rest) hpend)⟩

/-- Settles O5: both places of the core's turn complete the reserved opcode with IllegalCommand. -/
theorem reservedOpcodeCompletesIllegal : Obligations.ReservedOpcodeCompletesIllegal := by
  unfold Obligations.ReservedOpcodeCompletesIllegal
  intro s op hf hpend hres
  refine ⟨fun hnil => ⟨complete s .illegal, ?noEvent, rfl, statusCompleted_illegal_word, rfl⟩,
    fun rest he => ⟨complete (takeEvent s rest) .illegal, ?coreTurn, rfl, statusCompleted_illegal_word, rfl⟩⟩
  case noEvent => exact (step_noEvent s hf hnil).trans (coreStep_reserved hpend hres)
  case coreTurn => exact (step_coreTurn hf he).trans (coreStep_reserved hpend hres)

/-! ### The causes of HOSTFAULT -/

/-- The events that set HOSTFAULT in the state `s` (60_exceptions.md R216). -/
def setsHostFault (s : State) : HostEvent → Bool
  | .read bits off => !admitted bits off
  | .write bits off _ => !admitted bits off || s.status.busy
  | .reset => false
  | .coreTurn => false

theorem setsHostFault_takeEvent (s : State) (rest : List HostEvent) (e : HostEvent) :
    setsHostFault (takeEvent s rest) e = setsHostFault s e := by
  cases e <;> rfl

theorem hostRead_hostFault (bits : Nat) (off : Offset) (s : State) :
    (hostRead bits off s).hostFault = (s.hostFault || !admitted bits off) := by
  rcases hostRead_cases bits off s with
    ⟨hadm, h⟩ | ⟨hadm, -, h⟩ | ⟨hadm, -, -, h⟩ | ⟨hadm, -, -, -, h⟩ | ⟨hadm, -, -, -, h⟩ <;> simp [h, hadm]

theorem hostWrite_hostFault (bits : Nat) (off : Offset) (v : Word) (s : State) :
    (hostWrite bits off v s).hostFault = (s.hostFault || (!admitted bits off || s.status.busy)) := by
  rcases hostWrite_cases bits off v s with ⟨hadm | hbusy, h⟩ | ⟨hadm, hidle, h⟩
  · simp [h, hadm]
  · simp [h, hbusy]
  · simp [h, hadm, hidle]

theorem exec_hostFault {i : Instr} {s t : State} (h : exec i s = .next t) : t.hostFault = s.hostFault := by
  obtain ⟨u, e, hend, hframe⟩ := exec_framedBy i s
  cases hend.symm.trans h
  exact hframe.hostFault

theorem completionStep_hostFault {op : Opcode} {s t : State} (h : completionStep op s = .next t) :
    t.hostFault = s.hostFault := by
  rcases decodeOp_cases op with ⟨i, rfl, -⟩ | ⟨hres, -⟩
  · exact exec_hostFault ((completionStep_opcodeOf i s).symm.trans h)
  · cases (completionStep_reserved hres s).symm.trans h
    rfl

theorem coreStep_hostFault {s t : State} (h : coreStep s = .next t) : t.hostFault = s.hostFault := by
  cases hpend : s.pend with
  | none =>
    cases (coreStep_idle hpend).symm.trans h
    rfl
  | some op =>
    simp only [coreStep, hpend] at h
    exact completionStep_hostFault h

/-- What running an event makes of HOSTFAULT. -/
theorem runEvent_hostFault {e : HostEvent} {s t : State} (h : runEvent e s = .next t) :
    t.hostFault = (s.hostFault || setsHostFault s e) := by
  cases e with
  | read bits off =>
    obtain rfl : hostRead bits off s = t := by injection h
    exact hostRead_hostFault bits off s
  | write bits off v =>
    obtain rfl : hostWrite bits off v s = t := by injection h
    exact hostWrite_hostFault bits off v s
  | reset =>
    obtain rfl : applyReset s = t := by injection h
    exact (Bool.or_false _).symm
  | coreTurn => exact (coreStep_hostFault h).trans (Bool.or_false _).symm

/-- Settles O10: the step runs one event, and of the four only a host access sets the mark. -/
theorem hostFaultHasTwoCauses : Obligations.HostFaultHasTwoCauses := by
  unfold Obligations.HostFaultHasTwoCauses
  intro s t hf hstep
  rcases step_takes s with ⟨hnil, htake⟩ | ⟨e, rest, he, htake⟩
  · obtain ⟨-, hrun⟩ := guardedEvent_next _ _ _ (htake ▸ hstep)
    simp [runEvent_hostFault hrun, hf, hnil, setsHostFault]
  · obtain ⟨-, hrun⟩ := guardedEvent_next _ _ _ (htake ▸ hstep)
    have hmark : t.hostFault = setsHostFault s e := by
      rw [runEvent_hostFault hrun, takeEvent_hostFault, hf, Bool.false_or, setsHostFault_takeEvent]
    cases e with
    | read bits off => simp [hmark, he, setsHostFault, admitted_eq_false]
    | write bits off v => simp [hmark, he, setsHostFault, admitted_eq_false, or_assoc]
    | reset | coreTurn => simp [hmark, he, setsHostFault]

/-! ### A run with HOSTFAULT = 1 -/

theorem guardedEvent_hostFault {e : HostEvent} {s : State} (hf : s.hostFault = true) (he : e ≠ .reset) :
    guardedEvent e s = .fault .hostFault :=
  if_pos ⟨hf, he⟩

/-- Settles O12: the event a step takes is the core's turn or the head of the list, and only reset passes the guard. -/
theorem hostFaultStopsEveryStepButReset : Obligations.HostFaultStopsEveryStepButReset := by
  unfold Obligations.HostFaultStopsEveryStepButReset
  intro s hf hnot
  rcases step_takes s with ⟨-, htake⟩ | ⟨e, rest, he, htake⟩
  · exact htake.trans (guardedEvent_hostFault hf nofun)
  · have hne : e ≠ .reset := by
      rintro rfl
      exact hnot rest he
    exact htake.trans (guardedEvent_hostFault (s := takeEvent s rest) hf hne)

/-! ### The error ending -/

/-- A command that ends in an error is a completion of the state it started from (60_exceptions.md R218). -/
theorem exec_error {i : Instr} {s t : State} (h : exec i s = .next t) (herr : t.status.err ≠ .none) :
    t = complete s t.status.err := by
  rcases exec_ends i s with ⟨e, -, -, hend⟩ | ⟨_, _, _, _, _, _, _, _, hend⟩
  · cases hend.symm.trans h
    rfl
  · cases hend.symm.trans h
    exact absurd rfl herr

theorem completionStep_error {op : Opcode} {s t : State} (h : completionStep op s = .next t) (herr : t.status.err ≠ .none) :
    t = complete s t.status.err := by
  rcases decodeOp_cases op with ⟨i, rfl, -⟩ | ⟨hres, -⟩
  · exact exec_error ((completionStep_opcodeOf i s).symm.trans h) herr
  · cases (completionStep_reserved hres s).symm.trans h
    rfl

/-- Settles O27: an error ending is `complete`, which writes STATUS and PEND. -/
theorem errorChangesOnlyStatusAndPend : Obligations.ErrorChangesOnlyStatusAndPend := by
  unfold Obligations.ErrorChangesOnlyStatusAndPend
  exact ⟨fun i s t => exec_error, fun op s t => completionStep_error⟩

/-! ### CallsignEncodeError -/

/-- SRC_CALLSIGN and ENCODE both report that `encode_callsign` failed (60_exceptions.md R211). -/
theorem exec_of_callsign_error {s : State} {e : ErrCode} (h : encodeCallsign (callLength s) (callChar s) = .error e) :
    exec .srcCallsign s = .next (complete s e) ∧ exec .encode s = .next (complete s e) :=
  ⟨exec_srcCallsign_of_error h, exec_encode_of_error (encodeMessage_of_callsign_error h _ _ _)⟩

theorem encodeCallsign_of_not_ok {n : Nat} {call : Nat → Byte} (h : ∀ r, encodeCallsign n call ≠ .ok r) :
    encodeCallsign n call = .error .callsign := by
  cases hr : encodeCallsign n call with
  | ok r => exact absurd hr (h r)
  | error e => rw [encodeCallsign_error _ _ _ hr]

/-- Settles O34: `b` is the realigned buffer, and each of the three causes contradicts a check that an accepted callsign
passes. -/
theorem invalidCallsignIsRejected : Obligations.InvalidCallsignIsRejected := by
  unfold Obligations.InvalidCallsignIsRejected
  intro s t b hpad hkept hshifted hcause
  have hbuf : realign (padCallsign (callLength s) (callChar s)) = callBufOf b := realign_padCallsign hpad hkept hshifted
  refine exec_of_callsign_error (encodeCallsign_of_not_ok fun r hok => ?_)
  rw [encodeCallsign_eq_ok_iff, hbuf, prefixOk_iff, suffixOk_iff] at hok
  obtain ⟨⟨hmin, hmax⟩, hprefix, hsuffix, -⟩ := hok
  rcases hcause with hshort | hlong | hbadPrefix | hbadSuffix
  · exact absurd hmin (Nat.not_le.mpr hshort)
  · exact absurd hmax (Nat.not_le.mpr hlong)
  · exact hbadPrefix hprefix
  · exact hbadSuffix hsuffix

/-! ### LocatorEncodeError and PowerEncodeError -/

theorem encodeMessage_of_locatorPower_error {n m p cs : Nat} {call loc : Nat → Byte} {e : ErrCode}
    (hcs : encodeCallsign n call = .ok cs) (hlp : encodeLocatorPower m loc p = .error e) :
    encodeMessage n call m loc p = .error e := by
  simp only [encodeMessage, hcs, hlp]

/-- SRC_LOCPWR reports that `encode_locator_power` failed, and so does ENCODE once the callsign is accepted (60_exceptions.md
R212, R213, R217). -/
theorem exec_of_locatorPower_error {s : State} {e : ErrCode}
    (h : encodeLocatorPower (locLength s) (locChar s) (powerValue s) = .error e) :
    exec .srcLocpwr s = .next (complete s e) ∧
    ∀ cs, encodeCallsign (callLength s) (callChar s) = .ok cs → exec .encode s = .next (complete s e) :=
  ⟨exec_srcLocpwr_of_error h, fun _ hcs => exec_encode_of_error (encodeMessage_of_locatorPower_error hcs h)⟩

/-- The locator is checked before the power (41_source_frame.md R128, R129). -/
theorem encodeLocatorPower_of_badLocator {m : Nat} {loc : Nat → Byte}
    (h : ¬(m = 4 ∧ locatorOk (fun k => upper (loc k)) = true)) (p : Nat) : encodeLocatorPower m loc p = .error .locator := by
  by_cases hm : m = 4
  · have hbad : locatorOk (fun k => upper (loc k)) = false := Bool.eq_false_iff.mpr fun hok => h ⟨hm, hok⟩
    simp [encodeLocatorPower, hm, hbad]
  · exact if_pos hm

theorem encodeLocatorPower_of_badPower {m p : Nat} {loc : Nat → Byte} (hm : m = 4)
    (hloc : locatorOk (fun k => upper (loc k)) = true) (hp : 60 < p) : encodeLocatorPower m loc p = .error .power := by
  simp [encodeLocatorPower, hm, hloc, hp]

/-- Settles O40: the statement's ranges are `locatorOk` of the folded locator. -/
theorem invalidLocatorOrPowerIsRejected : Obligations.InvalidLocatorOrPowerIsRejected := by
  unfold Obligations.InvalidLocatorOrPowerIsRejected
  intro s l hfold
  rw [hfold 0 (by decide), hfold 1 (by decide), hfold 2 (by decide), hfold 3 (by decide),
    ← locatorOk_iff fun k => upper (locChar s k)]
  refine ⟨fun hbad => exec_of_locatorPower_error (encodeLocatorPower_of_badLocator hbad _), ?_⟩
  rintro ⟨hlen, hloc⟩ hpower
  exact exec_of_locatorPower_error (encodeLocatorPower_of_badPower hlen hloc hpower)

/-! ### The first error of ENCODE -/

/-- SRC_CALLSIGN ends with an error only where `encode_callsign` does. -/
theorem exec_srcCallsign_failure {s t : State} (h : exec .srcCallsign s = .next t) (herr : t.status.err ≠ .none) :
    encodeCallsign (callLength s) (callChar s) = .error .callsign :=
  encodeCallsign_of_not_ok fun r hr => by
    cases (exec_srcCallsign_of_ok hr).symm.trans h
    exact herr rfl

/-- SRC_LOCPWR ends with an error only where `encode_locator_power` does, and reports that error. -/
theorem exec_srcLocpwr_failure {s t : State} (h : exec .srcLocpwr s = .next t) (herr : t.status.err ≠ .none) :
    encodeLocatorPower (locLength s) (locChar s) (powerValue s) = .error t.status.err := by
  cases hr : encodeLocatorPower (locLength s) (locChar s) (powerValue s) with
  | ok r =>
    cases (exec_srcLocpwr_of_ok hr).symm.trans h
    exact absurd rfl herr
  | error e =>
    cases (exec_srcLocpwr_of_error hr).symm.trans h
    rfl

/-- Settles O55: what the two source commands report says which of the two source encoders fails first inside ENCODE. -/
theorem encodeReportsTheFirstError : Obligations.EncodeReportsTheFirstError := by
  unfold Obligations.EncodeReportsTheFirstError
  intro s
  constructor
  · intro t hexec herr
    obtain ⟨-, hencode⟩ := exec_of_callsign_error (exec_srcCallsign_failure hexec herr)
    exact hencode
  · intro t t' hcallsign hok hlocpwr herr
    obtain ⟨cs, hcs, -⟩ := exec_srcCallsign_success hcallsign hok
    have hlp := exec_srcLocpwr_failure hlocpwr herr
    obtain ⟨-, hencode⟩ := exec_of_locatorPower_error hlp
    exact ⟨hencode cs hcs, encodeLocatorPower_error _ _ _ _ hlp⟩

end Sys2Proof.Proofs
end

section
/-! PROOFS. The family of 70_reset_and_hazards.md: reset, host accesses to a busy block, and the completion of a pending
command. -/

namespace Sys2Proof.Proofs

open Sys2Proof.Machine Sys2Proof.Laws

/-! ### A pending command completes -/

/-- Settles O26: both ways a command can end are completions, and neither reports IllegalCommand. -/
theorem everyCommandCompletes : Obligations.EveryCommandCompletes := by
  unfold Obligations.EveryCommandCompletes
  intro i s
  rcases exec_ends i s with ⟨e, -, hlegal, hend⟩ | ⟨_, _, _, _, _, _, _, _, hend⟩
  · exact ⟨_, e, hend, rfl, hlegal, rfl⟩
  · exact ⟨_, .none, hend, rfl, nofun, rfl⟩

/-- The core's turn completes whatever is pending, a command or a reserved opcode, and leaves HOSTFAULT
(70_reset_and_hazards.md R249, 60_exceptions.md R215). -/
theorem coreStep_completes {s : State} (h : s.pend ≠ none) :
    ∃ u e, coreStep s = .next (complete u e) ∧ u.hostFault = s.hostFault := by
  obtain ⟨op, hop⟩ := Option.ne_none_iff_exists'.mp h
  rcases decodeOp_cases op with ⟨i, rfl, -⟩ | ⟨hres, -⟩
  · obtain ⟨u, e, hend, hframe⟩ := exec_framedBy i s
    exact ⟨u, e, (coreStep_pending hop).trans hend, hframe.hostFault⟩
  · exact ⟨s, .illegal, coreStep_reserved hop hres, rfl⟩

theorem run_succ_of_step {M : Host.Core} {s t : M.State} (h : M.step s = .next t) (k : Nat) :
    M.run (k + 1) s = M.run k t := by
  rw [Host.Core.run, h]

/-- What is claimed of the state `t` in which a command is no longer pending, when `events` were left: it is the command's
completion unless a reset was among them (70_reset_and_hazards.md R240, R248). -/
structure PendingEnded (events : List HostEvent) (t : State) : Prop where
  pend : t.pend = none
  busy : t.status.busy = false
  hostFault : t.hostFault = false
  done : .reset ∉ events → t.status.done = true

theorem pendingEnded_coreStep {s : State} (hf : s.hostFault = false) (hpend : s.pend ≠ none) (events : List HostEvent) :
    ∃ t, coreStep s = .next t ∧ PendingEnded events t := by
  obtain ⟨u, e, hrun, hu⟩ := coreStep_completes hpend
  exact ⟨complete u e, hrun, rfl, rfl, hu.trans hf, fun _ => rfl⟩

/-- One step from a pending command when the next event is harmless: the command ends, or a read leaves it pending with one
event fewer. -/
theorem step_of_pending_harmless {s : State} (hf : s.hostFault = false) (hpend : s.pend ≠ none)
    (hharm : ∀ e ∈ s.events, e.harmless = true) :
    ∃ t, step s = .next t ∧ (PendingEnded s.events t ∨
      ∃ bits off, s.events = .read bits off :: t.events ∧ t.pend = s.pend ∧ t.hostFault = false) := by
  cases he : s.events with
  | nil =>
    obtain ⟨t, hrun, hend⟩ := pendingEnded_coreStep hf hpend []
    exact ⟨t, (step_noEvent s hf he).trans hrun, .inl hend⟩
  | cons e rest =>
    have hhead : e.harmless = true := hharm e (by simp [he])
    cases e with
    | read bits off =>
      obtain ⟨hfault, rd, dr, hread⟩ := hostRead_registers bits off (takeEvent s rest)
      have hadm : admitted bits off = true := hhead
      refine ⟨hostRead bits off (takeEvent s rest), step_event s _ rest hf he, .inr ⟨bits, off, ?_, ?_, ?_⟩⟩
      · rw [hread]; rfl
      · rw [hread]; rfl
      · rw [hostRead_hostFault, takeEvent_hostFault, hf, hadm]; rfl
    | write bits off v => cases hhead
    | reset => exact ⟨_, step_reset he, .inl ⟨rfl, rfl, hf, fun hno => absurd List.mem_cons_self hno⟩⟩
    | coreTurn =>
      obtain ⟨t, hrun, hend⟩ := pendingEnded_coreStep (s := takeEvent s rest) hf hpend (.coreTurn :: rest)
      exact ⟨t, (step_coreTurn hf he).trans hrun, .inl hend⟩

/-- By recursion on the number of events left: a step ends the command or takes a read off the list, and a read is no reset. -/
theorem run_pendingEnded {s : State} (hf : s.hostFault = false) (hpend : s.pend ≠ none)
    (hharm : ∀ e ∈ s.events, e.harmless = true) :
    ∃ k ≤ s.events.length + 1, ∃ t, core.run k s = .next t ∧ PendingEnded s.events t := by
  obtain ⟨t, hstep, hend | ⟨bits, off, he, hp, hft⟩⟩ := step_of_pending_harmless hf hpend hharm
  · exact ⟨1, Nat.le_add_left 1 _, t, run_succ_of_step (M := core) hstep 0, hend⟩
  · have hlen : s.events.length = t.events.length + 1 := by rw [he, List.length_cons]
    have hrest : ∀ e ∈ t.events, e.harmless = true := fun e hmem => hharm e (he ▸ List.mem_cons_of_mem _ hmem)
    obtain ⟨k, hk, u, hrun, hend⟩ := run_pendingEnded hft (hp ▸ hpend) hrest
    have hdone : .reset ∉ s.events → u.status.done = true := fun hno =>
      hend.done fun hmem => hno (he ▸ List.mem_cons_of_mem _ hmem)
    exact ⟨k + 1, by omega, u, (run_succ_of_step (M := core) hstep k).trans hrun, hend.pend, hend.busy, hend.hostFault, hdone⟩
termination_by s.events.length

/-- Settles O30: the run to the end of the pending command takes at most one step for each event and one more. -/
theorem pendingCommandAlwaysCompletes : Obligations.PendingCommandAlwaysCompletes := by
  unfold Obligations.PendingCommandAlwaysCompletes
  intro s hf hpend hharm
  obtain ⟨k, hk, t, hrun, hend⟩ := run_pendingEnded hf hpend hharm
  exact ⟨k, hk, t, hrun, hend.pend, hend.busy, hend.hostFault, hend.done⟩

/-! ### The core's turn runs the pending command -/

theorem opField_setWidth (op : Opcode) : opField (op.setWidth 32) = op := by
  rw [opField_eq_setWidth, BitVec.setWidth_setWidth_of_le _ (by decide), BitVec.setWidth_eq]

theorem decode_setWidth (op : Opcode) : decode (op.setWidth 32) = decodeOp op := by
  rw [decode, opField_setWidth]

/-- Settles O3: the pending opcode is the command's own, at both places of the core's turn. -/
theorem stepRunsPendingCommand : Obligations.StepRunsPendingCommand := by
  unfold Obligations.StepRunsPendingCommand
  intro s op i hf hpend hdec
  rw [decode_setWidth, decodeOp_eq_ok_iff] at hdec
  subst hdec
  exact ⟨fun hnil => (step_noEvent s hf hnil).trans (coreStep_pending hpend),
    fun rest he => (step_coreTurn hf he).trans (coreStep_pending (s := takeEvent s rest) hpend)⟩

/-! ### Host accesses while busy -/

/-- Settles O7: offset 0 is CMD, and a store to CMD accepts the low byte as the command. -/
theorem commandWriteIsAccepted : Obligations.CommandWriteIsAccepted := by
  unfold Obligations.CommandWriteIsAccepted
  intro s v rest hf he
  refine ⟨fun hidle => ?_, fun hbusy => step_write_fault hf (.inr hbusy) he⟩
  rw [step_write_idle hf hidle (by decide) he, ← opField_eq_setWidth]
  rfl

/-- Settles O8: BUSY = 1 is one of the two causes for which a write only sets the mark. -/
theorem writeWhileBusyIsHostFault : Obligations.WriteWhileBusyIsHostFault := by
  unfold Obligations.WriteWhileBusyIsHostFault
  intro s bits off v rest hf hbusy
  exact step_write_fault hf (.inr hbusy)

theorem step_read_busy {s : State} {off : Offset} {rest : List HostEvent} (hf : s.hostFault = false)
    (hbusy : s.status.busy = true) (hal : off.toNat % 4 = 0) (he : s.events = .read 32 off :: rest) :
    step s = .next (busyRead (takeEvent s rest) (regAt off)) := by
  rw [step_event s _ rest hf he, runEvent, hostRead, admitted_aligned hal, takeEvent_status, hbusy]
  rfl

/-- A reserved opcode writes no register but STATUS (30_encoding.md R94), so a pending one draws no value. -/
theorem pendingWrites_eq_true_iff {s : State} {op : Opcode} (hpend : s.pend = some op) (r : Reg) :
    pendingWrites s r = true ↔ ∃ i, decode (op.setWidth 32) = .ok i ∧ commandWrites i r = true := by
  rw [decode_setWidth]
  simp only [pendingWrites, hpend]
  cases decodeOp op <;> simp

theorem busyRead_draws {s : State} {r : Reg} (hr : r ≠ .status) (hw : pendingWrites s r = true) :
    busyRead s r = drawRead s r := by
  rw [busyRead, if_neg hr, if_pos hw]

theorem busyRead_answers {s : State} {r : Reg} (hr : r ≠ .status) (hw : ¬ pendingWrites s r = true) :
    busyRead s r = answerRead s (r.read s) := by
  rw [busyRead, if_neg hr, if_neg hw]

/-- The write sets of 30_encoding.md R94, command by command. -/
def InWriteSet : Instr → Reg → Prop := fun i r =>
  match i with
  | .encode => r = .csCode ∨ r = .lpCode ∨ ∃ w, r = .payload w ∨ r = .code w ∨ r = .ilv w ∨ r = .sym w
  | .srcCallsign => r = .csCode
  | .srcLocpwr => r = .lpCode
  | .pack => ∃ w, r = .payload w
  | .conv => ∃ w, r = .code w
  | .interleave => ∃ w, r = .ilv w
  | .assemble => ∃ w, r = .sym w
  | .chrAlnum => r = .chrOut
  | .chrAlpha => r = .chrOut

/-- The rows of `commandWrites` are the write sets of 30_encoding.md R94. -/
theorem commandWrites_iff (i : Instr) (r : Reg) : commandWrites i r = true ↔ InWriteSet i r := by
  constructor
  · intro h
    unfold commandWrites at h
    split at h
    case h_15 => cases h
    all_goals simp [InWriteSet]
  · cases i with
    | encode => rintro (rfl | rfl | ⟨w, rfl | rfl | rfl | rfl⟩) <;> rfl
    | pack | conv | interleave | assemble => rintro ⟨w, rfl⟩; rfl
    | _ => rintro rfl; rfl

theorem commandWrites_status (i : Instr) : commandWrites i .status = false := by
  cases i <;> rfl

theorem and_mask_and_not_mask (x : Word) (r : Reg) : x &&& r.mask &&& ~~~r.mask = 0 := by
  rw [BitVec.and_assoc, BitVec.and_not_self]
  exact BitVec.and_zero

theorem toNat_and_mask_lt (x : Word) {r : Reg} {n : Nat} (h : r.mask.toNat < n) : (x &&& r.mask).toNat < n := by
  rw [BitVec.toNat_and]
  exact Nat.and_le_right.trans_lt h

/-- Settles O17: `busyRead` asks for STATUS first and for the write set next, and a drawn value stays within the register's
mask. -/
theorem busyReadAnswers : Obligations.BusyReadAnswers := by
  unfold Obligations.BusyReadAnswers
  intro writes s off rest op hf hbusy hpend hal he
  have hstep := step_read_busy hf hbusy hal he
  have hdraws := pendingWrites_eq_true_iff (s := takeEvent s rest) hpend (regAt off)
  refine ⟨fun hr => ?status, fun i hdec hw => ?drawn, fun hr hnot => ?current⟩
  case status =>
    rw [hstep, hr]
    rfl
  case drawn =>
    have hcmd : commandWrites i (regAt off) = true := (commandWrites_iff i _).mpr hw
    have hr : regAt off ≠ .status := fun hr => by simp [hr, commandWrites_status] at hcmd
    have bound {r : Reg} {n : Nat} (h : r.mask.toNat < n) (hreg : regAt off = r) :
        (Config.freeRead s.draws &&& (regAt off).mask).toNat < n := toNat_and_mask_lt _ (hreg ▸ h)
    refine ⟨Config.freeRead s.draws &&& (regAt off).mask, ?_, and_mask_and_not_mask _ _, bound (by decide), bound (by decide),
      fun h => h.elim (bound (by decide)) (bound (by decide)), bound (by decide)⟩
    rw [hstep, busyRead_draws hr (hdraws.mpr ⟨i, hdec, hcmd⟩)]
    rfl
  case current =>
    have hno : ¬ pendingWrites (takeEvent s rest) (regAt off) = true := by
      rw [hdraws]
      rintro ⟨i, hdec, hcmd⟩
      exact hnot i hdec ((commandWrites_iff i _).mp hcmd)
    rw [hstep, busyRead_answers hr hno, takeEvent_read]
    rfl

/-! ### Reset -/

theorem read_reset (r : Reg) : Reg.read State.reset r = 0 := by
  cases r with
  | payload w | code w | ilv w | sym w => exact BitVec.extractLsb'_zero
  | _ => rfl

/-- The reset input keeps only fields that no register shows (70_reset_and_hazards.md R240). -/
theorem read_applyReset (s : State) (r : Reg) : Reg.read (applyReset s) r = 0 := by
  rw [← read_reset r]
  cases r <;> rfl

/-- Settles O23: every register field is 0 in `State.reset`, and the reset input copies them all. -/
theorem resetLeavesEveryRegisterZero : Obligations.ResetLeavesEveryRegisterZero := by
  unfold Obligations.ResetLeavesEveryRegisterZero
  exact ⟨read_reset, rfl, rfl, rfl, fun s rest he => ⟨_, step_reset he, read_applyReset _, rfl, rfl, rfl, rfl, rfl⟩⟩

end Sys2Proof.Proofs
end
